-- ==== Sys2Proof/Word.lean ====
section
/-! DEFINITION. The one word type of the machine: registers, addresses, the program counter and memory locations are
all bytes (spec R4, R6, R20, R26, R50). -/

namespace Sys2Proof

/-- An unsigned 8-bit value; its arithmetic wraps modulo 256 (R6, R22, R27). -/
abbrev Byte := BitVec 8

/-- A general register's index, 0 to 7 (R20). -/
abbrev RegIndex := Fin 8

end Sys2Proof
end

