-- ==== Sys2Proof/Config.lean ====
section
/-! DEFINITION. The enumerations of the control state and the size of memory (spec R4, R28, R32).
The parameters that a test could show wrong stand in Sys2Proof/Machine/Params.lean. The spec leaves no value open
that an instruction can produce, so there is no free value here. -/

namespace Sys2Proof

/-- The number of bytes of memory, MEMSIZE of R4; locations 0 to 255 (R50). -/
def Config.memSize : Nat := 256

/-- The cause recorded by fault entry (R32, R215). -/
inductive Cause where
  /-- The opcode byte matches no known instruction; raised at step 2 of the cycle (R112). -/
  | decodeFailure
  /-- An ALU-classified opcode that is none of ADD, SUB, MUL, CMP; raised at step 4 of the cycle (R114). -/
  | unsupportedAluOperation
deriving DecidableEq, Repr

/-- The flags register FL: the result of the most recent compare (R28, C1). -/
inductive Flag where
  /-- `None`: no compare has set a flag. -/
  | none
  /-- `E`. -/
  | equal
  /-- `G`. -/
  | greater
  /-- `L`. -/
  | less
deriving DecidableEq, Repr

end Sys2Proof
end

