-- ==== Sys2Proof/Syntax.lean ====
section
/-! DEFINITION. The 14 instructions of spec R86, one constructor per row of spec/opcode_table.json. An operand is the
operand BYTE as the cycle reads it: "Operand bytes are raw bytes at this step; the handler interprets each as a
register index or an immediate" (R113; log 13). Sys2Proof/Machine/Operands.lean reads a register out of one. -/

namespace Sys2Proof

inductive Instr where
  /-- ADD, format F2 (R131). -/
  | add (opa opb : Byte)
  /-- SUB, format F2 (R132). -/
  | sub (opa opb : Byte)
  /-- MUL, format F2 (R133). -/
  | mul (opa opb : Byte)
  /-- CMP, format F2 (R134). -/
  | cmp (opa opb : Byte)
  /-- HLT, format F0 (R151). -/
  | hlt
  /-- LDI, format F2; `opb` is the immediate (R156). -/
  | ldi (opa opb : Byte)
  /-- PRN, format F1 (R157). -/
  | prn (opa : Byte)
  /-- PUSH, format F1 (R166). -/
  | push (opa : Byte)
  /-- POP, format F1 (R167). -/
  | pop (opa : Byte)
  /-- CALL, format F1 (R176). -/
  | call (opa : Byte)
  /-- RET, format F0 (R177). -/
  | ret
  /-- JMP, format F1 (R178). -/
  | jmp (opa : Byte)
  /-- JEQ, format F1 (R179). -/
  | jeq (opa : Byte)
  /-- JNE, format F1 (R180). -/
  | jne (opa : Byte)
deriving DecidableEq, Repr

end Sys2Proof
end

