-- ==== Sys2Proof/Decode.lean ====
section
/-! DEFINITION. The decoder and the encoder (spec 30_encoding.md). The 14 opcode bytes stand in ONE place, `opcodeOf`
(U2); the decoder and the encoder both read it. Decoding is total: any byte and any list of bytes gets an answer, and
a rejection has a name. -/

namespace Sys2Proof

/-- The 14 mnemonics of the table of R86. -/
inductive Mnemonic where
  | add | sub | mul | cmp | hlt | ldi | prn | push | pop | call | ret | jmp | jeq | jne
deriving DecidableEq, Repr

/-- The rows of the table of R86, in its order. -/
def allMnemonics : List Mnemonic :=
  [.add, .sub, .mul, .cmp, .hlt, .ldi, .prn, .push, .pop, .call, .ret, .jmp, .jeq, .jne]

/-- The opcode byte of each row of R86. UNVERIFIED: bits 3 to 0 are the spec's decision D1, not the source's (log 1;
unsafe). -/
def opcodeOf : Mnemonic → Byte
  | .add => 0b10100000
  | .sub => 0b10100001
  | .mul => 0b10100010
  | .cmp => 0b10100111
  | .hlt => 0b00000001
  | .ldi => 0b10000010
  | .prn => 0b01000111
  | .push => 0b01000101
  | .pop => 0b01000110
  | .call => 0b01010000
  | .ret => 0b00010001
  | .jmp => 0b01010100
  | .jeq => 0b01010101
  | .jne => 0b01010110

/-- Field `NN`, bits 7 to 6 of the opcode byte: the operand count (R81). -/
def operandCountField (ir : Byte) : Nat := (ir.extractLsb' 6 2).toNat

/-- Field `A`, bit 5: the instruction is an ALU instruction (R81). -/
def aluField (ir : Byte) : Bool := ir.getLsbD 5

/-- Field `C`, bit 4: the instruction sets the program counter itself (R81). -/
def setsPcField (ir : Byte) : Bool := ir.getLsbD 4

/-- Field `IIII`, bits 3 to 0: the instruction identifier (R81). The decoder does not key on it alone (R88, C4). -/
def identifierField (ir : Byte) : Nat := (ir.extractLsb' 0 4).toNat

/-- The instruction descriptor (R83). It is a function of the opcode byte and no state (R36). -/
structure Descriptor where
  mnemonic : Mnemonic
  operandCount : Nat
  isAluOp : Bool
  setsPc : Bool
deriving DecidableEq, Repr

/-- The Decoder's answer about one opcode byte (R83). -/
inductive OpcodeClass where
  | ok (d : Descriptor)
  | illegal (cause : Cause)
deriving DecidableEq, Repr

/-- The row of R86 whose opcode is exactly this byte: all 8 bits are matched (R88). -/
def lookupOpcode (ir : Byte) : Option Mnemonic := allMnemonics.find? fun m => opcodeOf m == ir

/-- The cause an undefined opcode byte reports (R89). UNVERIFIED: the spec's decision D3 (log 2; only the label can be
wrong, unsafe). -/
def illegalCause (ir : Byte) : Cause :=
  if operandCountField ir = 3 then .decodeFailure
  else if aluField ir then .unsupportedAluOperation
  else .decodeFailure

/-- `Decode(ir)` of R83: the descriptor is read from the byte's own fields. -/
def decodeOpcode (ir : Byte) : OpcodeClass :=
  match lookupOpcode ir with
  | some m => .ok ⟨m, operandCountField ir, aluField ir, setsPcField ir⟩
  | none => .illegal (illegalCause ir)

/-- The instruction of a row with its operand bytes; a format without an operand does not look at that byte (R80, R85). -/
def instrOf (m : Mnemonic) (opa opb : Byte) : Instr :=
  match m with
  | .add => .add opa opb
  | .sub => .sub opa opb
  | .mul => .mul opa opb
  | .cmp => .cmp opa opb
  | .hlt => .hlt
  | .ldi => .ldi opa opb
  | .prn => .prn opa
  | .push => .push opa
  | .pop => .pop opa
  | .call => .call opa
  | .ret => .ret
  | .jmp => .jmp opa
  | .jeq => .jeq opa
  | .jne => .jne opa

/-- What an opcode byte and the two bytes after it are. -/
inductive Decoded where
  /-- One of the 14 instructions. -/
  | instr (i : Instr)
  /-- An undefined opcode byte, with the cause it reports (R89). -/
  | illegal (cause : Cause)
deriving DecidableEq, Repr

/-- Decode an opcode byte with the two bytes that follow it (R83, R84, R93). -/
def decode (ir opa opb : Byte) : Decoded :=
  match decodeOpcode ir with
  | .ok d => .instr (instrOf d.mnemonic opa opb)
  | .illegal c => .illegal c

/-- What a list of bytes begins with. -/
inductive StreamDecoded where
  /-- An instruction, and the bytes after it. -/
  | instr (i : Instr) (rest : List Byte)
  /-- An undefined opcode byte, rejected with its cause (R89). -/
  | illegal (cause : Cause) (opcode : Byte)
  /-- The list ends before the instruction does. A fetch from memory never meets this (R27, R50). -/
  | truncated
deriving DecidableEq, Repr

/-- Decode the first instruction of a list of bytes; total, and its length is `1 + NN` (R80, R93). -/
def decodeBytes : List Byte → StreamDecoded
  | [] => .truncated
  | ir :: rest =>
    match decodeOpcode ir with
    | .illegal c => .illegal c ir
    | .ok d =>
      match d.operandCount, rest with
      | 0, rest => .instr (instrOf d.mnemonic 0 0) rest
      | 1, opa :: rest => .instr (instrOf d.mnemonic opa 0) rest
      | 2, opa :: opb :: rest => .instr (instrOf d.mnemonic opa opb) rest
      | _, _ => .truncated

/-- The row of R86 an instruction belongs to. -/
def mnemonicOf : Instr → Mnemonic
  | .add _ _ => .add
  | .sub _ _ => .sub
  | .mul _ _ => .mul
  | .cmp _ _ => .cmp
  | .hlt => .hlt
  | .ldi _ _ => .ldi
  | .prn _ => .prn
  | .push _ => .push
  | .pop _ => .pop
  | .call _ => .call
  | .ret => .ret
  | .jmp _ => .jmp
  | .jeq _ => .jeq
  | .jne _ => .jne

/-- The operand bytes of an instruction, in the order of their addresses (R55, R85). -/
def operandBytes : Instr → List Byte
  | .add opa opb => [opa, opb]
  | .sub opa opb => [opa, opb]
  | .mul opa opb => [opa, opb]
  | .cmp opa opb => [opa, opb]
  | .hlt => []
  | .ldi opa opb => [opa, opb]
  | .prn opa => [opa]
  | .push opa => [opa]
  | .pop opa => [opa]
  | .call opa => [opa]
  | .ret => []
  | .jmp opa => [opa]
  | .jeq opa => [opa]
  | .jne opa => [opa]

/-- The bytes of an instruction: the opcode first, then its operands (R55, R80). -/
def encode (i : Instr) : List Byte := opcodeOf (mnemonicOf i) :: operandBytes i

/-- The first three bytes of an instruction whose bits are numbered as spec/opcode_table.json numbers them: bit 0 is
the least significant bit of the first byte; bits at `nbits` and above are 0. Three bytes is the longest instruction. -/
def tableWordBytes (nbits w : Nat) : List Byte :=
  let v := w % 2 ^ nbits
  [BitVec.ofNat 8 v, BitVec.ofNat 8 (v / 2 ^ 8), BitVec.ofNat 8 (v / 2 ^ 16)]

/-- The instruction the decoder reads from an instruction word of the opcode table. -/
def decodeTableWord (nbits w : Nat) : Option Instr :=
  match decodeBytes (tableWordBytes nbits w) with
  | .instr i _ => some i
  | .illegal _ _ => none
  | .truncated => none

end Sys2Proof
end

