-- ==== Sys2Proof/Machine/Params.lean ====
section
/-! DEFINITION. The parameters of spec R4 whose values the spec itself decided or took over unaudited, each in one
place. -/

namespace Sys2Proof.Machine

/-- SP_INDEX: register 7 is the stack pointer (R21). -/
def spIndex : RegIndex := 7

/-- SP_RESET (R25). -/
def spReset : Byte := 0xF4

/-- PC_RESET (R26, R242). -/
def pcReset : Byte := 0

/-- LOAD_BASE: the first address the loader writes (R59). -/
def loadBase : Byte := 0

/-- GPR_RESET: registers 0 to 6 at reset (R25). UNVERIFIED: the spec's decision D7 (log 4; unsafe). -/
def gprReset : Byte := 0

/-- FL_RESET (R30). UNVERIFIED: the spec's decision D6 (log 5; unsafe). -/
def flReset : Flag := .none

/-- HLT_ADVANCES_PC: HLT leaves pc at its own address plus 1 (R151). UNVERIFIED: the spec's decision D5 (log 3;
unsafe). -/
def hltAdvancesPc : Bool := true

/-- What a location that the memory list does not name reads as (R64). DESIGN CHOICE: the spec's D8 says 0 for the
source's loader and leaves IMAGE open (log 6; unsafe); `State.resetWith` takes any IMAGE. -/
def unlistedByte : Byte := 0

/-- The numeric fault cause codes (R34, R215). UNVERIFIED: the spec's decision D4 (log 2; unsafe). -/
def causeCode : Cause → BitVec 2
  | .decodeFailure => 1
  | .unsupportedAluOperation => 2

end Sys2Proof.Machine
end

