-- ==== Sys2Proof/Machine/State.lean ====
section
/-! DEFINITION. The state record of spec R41, `{x, pc, fl, run, out, mem}`, and its value after reset (R38). -/

namespace Sys2Proof.Machine

/-- Memory as (address, byte) pairs in one canonical form, `Memory.wf` in Machine/Memory.lean; a location that is not
listed reads as `unlistedByte` (R50, R64; log 6). -/
abbrev Memory := List Host.Cell

/-- The run state (R32). -/
inductive RunState where
  /-- `Running`. -/
  | running
  /-- `Halted`: entered by HLT only (R151). -/
  | halted
  /-- `Fault(cause, opcode)`: entered by fault entry only (R217). -/
  | fault (cause : Cause) (opcode : Byte)
deriving DecidableEq, Repr

/-- The whole state of the machine (R41). -/
structure State where
  /-- The eight general registers; `x[7]` is the stack pointer (R20, R21). -/
  x : Vector Byte 8
  /-- The program counter (R26). -/
  pc : Byte
  /-- The flags register (R28). -/
  fl : Flag
  /-- The run state (R32). -/
  run : RunState
  /-- The bytes emitted since reset, oldest first (R35). -/
  out : List Byte
  /-- The 256 bytes of memory (R50). -/
  mem : Memory
deriving DecidableEq, Repr

/-- Why `step` has no next state. These are no faults of the spec's own: a fault of the spec is a next state whose
`run` is `RunState.fault` (R217). -/
inductive Fault where
  /-- Raised by `step` when `run` is `Halted`: "`Step()` is undefined (the machine has no transition)" (R117, D15).
  Safe: the machine stops where the hardware stays frozen (log 8). -/
  | halted
  /-- Raised by `step` when `run` is `Fault(cause, opcode)`: no further cycle begins (R117, R223, D15). Safe (log 8). -/
  | stopped (cause : Cause) (opcode : Byte)
deriving DecidableEq, Repr

/-- Why an instruction has no meaning. Every instruction of this machine has one, so nothing raises it. -/
inductive Refusal where
  /-- Raised by an arm of `exec` whose instruction is not modelled yet: there is none. Safe. -/
  | notModelled (mnemonic : String)
deriving DecidableEq, Repr

/-- The machine right after reset (R38, R240), with memory listing nothing. `State.resetWith` gives it any IMAGE. -/
def State.reset : State where
  x := (Vector.replicate 8 gprReset).set spIndex spReset
  pc := pcReset
  fl := flReset
  run := .running
  out := []
  mem := []

end Sys2Proof.Machine
end

