-- ==== Sys2Proof/Machine/Memory.lean ====
section
/-! DEFINITION. The two memory primitives, `MemRead` and `MemWrite` (spec R52, R53), over the list of cells, the
canonical form of that list, and the loader's filling of memory (R64, R204). -/

namespace Sys2Proof.Machine

/-- The byte listed for an address, or what an unlisted address reads as. -/
def lookupCell (a : Nat) : Memory → Byte
  | [] => unlistedByte
  | c :: m => if c.1 = a then c.2 else lookupCell a m

/-- List a byte for an address, keeping the addresses rising. -/
def insertCell (a : Nat) (v : Byte) : Memory → Memory
  | [] => [(a, v)]
  | c :: m =>
    if a < c.1 then (a, v) :: c :: m
    else if c.1 = a then (a, v) :: m
    else c :: insertCell a v m

/-- List nothing for an address. -/
def eraseCell (a : Nat) (m : Memory) : Memory := m.filter fun c => c.1 != a

/-- `MemRead(addr, 1)`: no side effect, no fault (R52, R54). -/
def memRead (m : Memory) (addr : Byte) : Byte := lookupCell addr.toNat m

/-- `MemWrite(addr, 1, v)`: the one byte changes, no fault (R53, R54). Writing what an unlisted address reads as
removes the entry. -/
def memWrite (m : Memory) (addr v : Byte) : Memory :=
  if v = unlistedByte then eraseCell addr.toNat m else insertCell addr.toNat v m

/-- The canonical form: addresses strictly rising, inside memory, and no entry equal to what an unlisted address
reads as. -/
abbrev Memory.wf (m : Memory) : Prop :=
  m.Pairwise (fun c d => c.1 < d.1) ∧ ∀ c ∈ m, c.1 < Config.memSize ∧ c.2 ≠ unlistedByte

/-- Write successive bytes at successive addresses modulo 256. -/
def placeBytes (m : Memory) (addr : Byte) : List Byte → Memory
  | [] => m
  | v :: vs => placeBytes (memWrite m addr v) (addr + 1) vs

/-- The memory the loader leaves: the program's bytes from `loadBase` in file order, nothing else written (R64, R204,
R243). A program of more than 256 bytes is outside the spec and is not loaded (R99, U11; log 16). -/
def loadProgram (bytes : List Byte) : Option Memory :=
  if bytes.length ≤ Config.memSize then some (placeBytes [] loadBase bytes) else none

end Sys2Proof.Machine
end

