-- ==== Sys2Proof/Machine/Ops.lean ====
section
/-! DEFINITION. The named operations every meaning is built from: registers, the stack pointer, memory, output, the
executor's pc update (spec R116), the operand and opcode fetch (R111, R113), fault entry (R217) and reset (R240).
There is no return from a fault: only reset leaves it (R223). -/

namespace Sys2Proof.Machine

/-- `x[i]` (R7, R20). -/
def readReg (s : State) (i : RegIndex) : Byte := s.x[i]

/-- `x[i] <- v`; no register is hardwired (R20, R22). -/
def writeReg (s : State) (i : RegIndex) (v : Byte) : State := { s with x := s.x.set i v }

/-- `sp` is `x[7]` (R21). -/
def sp (s : State) : Byte := readReg s spIndex

/-- `sp <- v` is `x[7] <- v` (R21). -/
def setSp (s : State) (v : Byte) : State := writeReg s spIndex v

/-- `pc <- t` (R26). -/
def setPc (s : State) (t : Byte) : State := { s with pc := t }

/-- `fl <- f` (R29). -/
def setFlag (s : State) (f : Flag) : State := { s with fl := f }

/-- `run <- r` (R32). -/
def setRun (s : State) (r : RunState) : State := { s with run := r }

/-- `Emit(v)` appends to the output log; it cannot block or fail (R35, R157). UNVERIFIED: the spec's decision D11 (log
10; unsafe). -/
def emit (s : State) (v : Byte) : State := { s with out := s.out ++ [v] }

/-- `MemRead(addr, 1)` on the state's memory (R52). -/
def loadByte (s : State) (addr : Byte) : Byte := memRead s.mem addr

/-- `MemWrite(addr, 1, v)` on the state's memory (R53). -/
def storeByte (s : State) (addr v : Byte) : State := { s with mem := memWrite s.mem addr v }

/-- What a handler leaves: whether it wrote pc itself, and the state (R115). -/
structure HandlerResult where
  pcSet : Bool
  state : State
deriving DecidableEq, Repr

/-- `pc <- (pc + n + 1) mod 256` (R116). -/
def advancePc (s : State) (n : Nat) : State := setPc s (s.pc + BitVec.ofNat 8 (n + 1))

/-- Step 5 of the cycle: advance over `n` operand bytes unless the handler set pc (R116, C2). -/
def updatePc (n : Nat) (r : HandlerResult) : State := if r.pcSet then r.state else advancePc r.state n

/-- Steps 5 and 6 of the cycle for an instruction with `n` operand bytes. No handler can fail (R118). -/
def finishCycle (n : Nat) (r : HandlerResult) : Host.Outcome State Fault Refusal := .next (updatePc n r)

/-- `raise Cause(ir)`: fault entry changes `run` and nothing else (R217, R222). -/
def raiseFault (s : State) (cause : Cause) (opcode : Byte) : State := setRun s (.fault cause opcode)

/-- Step 1: the opcode byte at pc (R111). -/
def fetchOpcode (s : State) : Byte := loadByte s s.pc

/-- Step 3: the operand byte at `pc + k`, read if the opcode's count declares it. A byte that is not declared is not
read; 0 stands in for it and nothing looks at it (R113, D20; log 15). -/
def fetchOperand (s : State) (k : Nat) : Byte :=
  if k ≤ operandCountField (fetchOpcode s) then loadByte s (s.pc + BitVec.ofNat 8 k) else 0

/-- Steps 1 to 3: what stands at pc (R110). -/
def fetchDecode (s : State) : Decoded := decode (fetchOpcode s) (fetchOperand s 1) (fetchOperand s 2)

/-- The state after reset over a given memory, IMAGE of R64 (R38, R240, R243). -/
def State.resetWith (image : Memory) : State := { State.reset with mem := image }

/-- The host asserts and releases reset: every register takes its reset value, the output log is empty, memory is kept
(R240, R241). It is the only way out of Halted and Fault (R223). -/
def applyReset (s : State) : State := State.resetWith s.mem

end Sys2Proof.Machine
end

