-- ==== Sys2Proof/Machine/Flags.lean ====
section
/-! DEFINITION. Every flag computation: CMP's result (spec R134, R136), the Equal test of JEQ and JNE (R29), and the
byte form of FL on the debug output (R31). -/

namespace Sys2Proof.Machine

/-- CMP's flag, of two unsigned bytes (R134, R135). -/
def compareFlag (a b : Byte) : Flag :=
  if a = b then .equal else if b.toNat < a.toNat then .greater else .less

/-- The Equal flag is set (R179, R180). -/
def equalSet (f : Flag) : Bool := f == .equal

/-- `0b00000LGE` (R31). UNVERIFIED: the spec's decision D6 (log 5; unsafe; no instruction sees it). -/
def flagByte : Flag → Byte
  | .none => 0x00
  | .equal => 0x01
  | .greater => 0x02
  | .less => 0x04

end Sys2Proof.Machine
end

