-- ==== Sys2Proof/Machine/Operands.lean ====
section
/-! DEFINITION. The two operand forms (spec R84): a register operand byte names register `o mod 8`; an immediate is the
byte itself. -/

namespace Sys2Proof.Machine

/-- `ridx(o) = o mod 8`: bits 7 to 3 are ignored (R7, R24). -/
def ridx (o : Byte) : RegIndex := ⟨o.toNat % 8, Nat.mod_lt _ (by decide)⟩

/-- `x[ridx(o)]` (R84). -/
def readOperand (s : State) (o : Byte) : Byte := readReg s (ridx o)

/-- `x[ridx(o)] <- v` (R84). -/
def writeOperand (s : State) (o v : Byte) : State := writeReg s (ridx o) v

/-- An immediate operand byte is its own value, with no extension, scaling or shift (R84). -/
def immediate (o : Byte) : Byte := o

end Sys2Proof.Machine
end

