-- ==== Sys2Proof/Machine/Alu.lean ====
section
/-! DEFINITION. ADD, SUB, MUL and CMP (spec 41_alu.md). Both sources are read before the destination is written (R130). -/

namespace Sys2Proof.Machine

/-- The shape of ADD, SUB and MUL: `x[a] <- f(x[a], x[b])`, FL unchanged (R130). -/
def aluHandler (f : Byte → Byte → Byte) (opa opb : Byte) (s : State) : HandlerResult :=
  ⟨false, writeOperand s opa (f (readOperand s opa) (readOperand s opb))⟩

/-- ADD's handler (R131). -/
def addHandler (opa opb : Byte) (s : State) : HandlerResult := aluHandler (fun a b => a + b) opa opb s

/-- SUB's handler (R132). -/
def subHandler (opa opb : Byte) (s : State) : HandlerResult := aluHandler (fun a b => a - b) opa opb s

/-- MUL's handler: the low 8 bits of the product (R133). -/
def mulHandler (opa opb : Byte) (s : State) : HandlerResult := aluHandler (fun a b => a * b) opa opb s

/-- CMP's handler: FL is overwritten, nothing else changes (R134). -/
def cmpHandler (opa opb : Byte) (s : State) : HandlerResult :=
  ⟨false, setFlag s (compareFlag (readOperand s opa) (readOperand s opb))⟩

/-- ADD (R131). -/
def execAdd (opa opb : Byte) (s : State) : Host.Outcome State Fault Refusal := finishCycle 2 (addHandler opa opb s)

/-- SUB (R132). -/
def execSub (opa opb : Byte) (s : State) : Host.Outcome State Fault Refusal := finishCycle 2 (subHandler opa opb s)

/-- MUL (R133). -/
def execMul (opa opb : Byte) (s : State) : Host.Outcome State Fault Refusal := finishCycle 2 (mulHandler opa opb s)

/-- CMP (R134). -/
def execCmp (opa opb : Byte) (s : State) : Host.Outcome State Fault Refusal := finishCycle 2 (cmpHandler opa opb s)

end Sys2Proof.Machine
end

