-- ==== Sys2Proof/Machine/Stack.lean ====
section
/-! DEFINITION. PUSH and POP and the stack operations CALL and RET share (spec 44_stack.md). The stack is
full-descending and unchecked (R165). UNVERIFIED: an effect's statements run in the order written, each seeing the one
before it, the spec's decision D9 (log 7; unsafe for PUSH R7, POP R7 and CALL R7 only). -/

namespace Sys2Proof.Machine

/-- The address a push or a call stores to: `(sp - 1) mod 256` (R166, R176). -/
def pushAddr (s : State) : Byte := sp s - 1

/-- `sp <- (sp - 1) mod 256` (R166, R176). -/
def decrementSp (s : State) : State := setSp s (pushAddr s)

/-- `sp <- (sp + 1) mod 256` (R167, R177). -/
def incrementSp (s : State) : State := setSp s (sp s + 1)

/-- PUSH's handler: the register is read after the decrement (R166). -/
def pushHandler (opa : Byte) (s : State) : HandlerResult :=
  let t := decrementSp s
  ⟨false, storeByte t (sp t) (readOperand t opa)⟩

/-- POP's handler: the increment reads sp after the register write (R167). -/
def popHandler (opa : Byte) (s : State) : HandlerResult :=
  ⟨false, incrementSp (writeOperand s opa (loadByte s (sp s)))⟩

/-- PUSH (R166). -/
def execPush (opa : Byte) (s : State) : Host.Outcome State Fault Refusal := finishCycle 1 (pushHandler opa s)

/-- POP (R167). -/
def execPop (opa : Byte) (s : State) : Host.Outcome State Fault Refusal := finishCycle 1 (popHandler opa s)

end Sys2Proof.Machine
end

