-- ==== Sys2Proof/Machine/Control.lean ====
section
/-! DEFINITION. CALL, RET, JMP, JEQ and JNE (spec 45_control_transfer.md). While a handler runs, pc is the address of
its own opcode (R26). -/

namespace Sys2Proof.Machine

/-- CALL's handler: the return address `pc + 2` is pushed, and the target is read after the decrement (R176, D9). -/
def callHandler (opa : Byte) (s : State) : HandlerResult :=
  let t := decrementSp s
  let u := storeByte t (sp t) (s.pc + 2)
  ⟨true, setPc u (readOperand u opa)⟩

/-- RET's handler (R177). -/
def retHandler (s : State) : HandlerResult := ⟨true, incrementSp (setPc s (loadByte s (sp s)))⟩

/-- JMP's handler (R178). -/
def jmpHandler (opa : Byte) (s : State) : HandlerResult := ⟨true, setPc s (readOperand s opa)⟩

/-- A conditional jump: when it is not taken, the executor advances pc (R115, R181, C2). -/
def branchHandler (taken : Bool) (opa : Byte) (s : State) : HandlerResult :=
  if taken then jmpHandler opa s else ⟨false, s⟩

/-- JEQ's handler (R179). -/
def jeqHandler (opa : Byte) (s : State) : HandlerResult := branchHandler (equalSet s.fl) opa s

/-- JNE's handler (R180). -/
def jneHandler (opa : Byte) (s : State) : HandlerResult := branchHandler (!equalSet s.fl) opa s

/-- CALL (R176). -/
def execCall (opa : Byte) (s : State) : Host.Outcome State Fault Refusal := finishCycle 1 (callHandler opa s)

/-- RET (R177). -/
def execRet (s : State) : Host.Outcome State Fault Refusal := finishCycle 0 (retHandler s)

/-- JMP (R178). -/
def execJmp (opa : Byte) (s : State) : Host.Outcome State Fault Refusal := finishCycle 1 (jmpHandler opa s)

/-- JEQ (R179). -/
def execJeq (opa : Byte) (s : State) : Host.Outcome State Fault Refusal := finishCycle 1 (jeqHandler opa s)

/-- JNE (R180). -/
def execJne (opa : Byte) (s : State) : Host.Outcome State Fault Refusal := finishCycle 1 (jneHandler opa s)

end Sys2Proof.Machine
end

