-- ==== Sys2Proof/Machine/LoadOutput.lean ====
section
/-! DEFINITION. LDI and PRN (spec 43_load_immediate_and_output.md). -/

namespace Sys2Proof.Machine

/-- LDI's handler: `x[ridx(opa)] <- opb` (R156). -/
def ldiHandler (opa opb : Byte) (s : State) : HandlerResult := ⟨false, writeOperand s opa (immediate opb)⟩

/-- PRN's handler: `Emit(x[ridx(opa)])` (R157). -/
def prnHandler (opa : Byte) (s : State) : HandlerResult := ⟨false, emit s (readOperand s opa)⟩

/-- LDI (R156). -/
def execLdi (opa opb : Byte) (s : State) : Host.Outcome State Fault Refusal := finishCycle 2 (ldiHandler opa opb s)

/-- PRN (R157). -/
def execPrn (opa : Byte) (s : State) : Host.Outcome State Fault Refusal := finishCycle 1 (prnHandler opa s)

end Sys2Proof.Machine
end

