-- ==== Sys2Proof/Machine/System.lean ====
section
/-! DEFINITION. HLT (spec 42_system_hlt.md). -/

namespace Sys2Proof.Machine

/-- HLT's handler: `run <- Halted`; step 5 advances pc unless HLT_ADVANCES_PC is false (R151, D5; log 3). -/
def hltHandler (s : State) : HandlerResult := ⟨!hltAdvancesPc, setRun s .halted⟩

/-- HLT (R151). -/
def execHlt (s : State) : Host.Outcome State Fault Refusal := finishCycle 0 (hltHandler s)

end Sys2Proof.Machine
end

