-- ==== Sys2Proof/Machine/Dispatch.lean ====
section
/-! DEFINITION. One arm per instruction: "a fixed table from opcode to an enumerated instruction variant, resolved via
exhaustive matching" (spec R114). `step` calls it while `run` is Running (R110; log 14). -/

namespace Sys2Proof.Machine

def exec (i : Instr) (s : State) : Host.Outcome State Fault Refusal :=
  match i with
  | .add opa opb => Sys2Proof.Machine.execAdd opa opb s
  | .sub opa opb => Sys2Proof.Machine.execSub opa opb s
  | .mul opa opb => Sys2Proof.Machine.execMul opa opb s
  | .cmp opa opb => Sys2Proof.Machine.execCmp opa opb s
  | .hlt => Sys2Proof.Machine.execHlt s
  | .ldi opa opb => Sys2Proof.Machine.execLdi opa opb s
  | .prn opa => Sys2Proof.Machine.execPrn opa s
  | .push opa => Sys2Proof.Machine.execPush opa s
  | .pop opa => Sys2Proof.Machine.execPop opa s
  | .call opa => Sys2Proof.Machine.execCall opa s
  | .ret => Sys2Proof.Machine.execRet s
  | .jmp opa => Sys2Proof.Machine.execJmp opa s
  | .jeq opa => Sys2Proof.Machine.execJeq opa s
  | .jne opa => Sys2Proof.Machine.execJne opa s

end Sys2Proof.Machine
end

