-- ==== Sys2Proof/Machine/Step.lean ====
section
/-! DEFINITION. One cycle of the Executor (spec R110), and the placing of one instruction where the next cycle fetches
it. -/

namespace Sys2Proof.Machine

/-- `Step()` of R110, defined only while `run` is Running. An undefined opcode takes fault entry (R217). In Halted and
Fault there is no transition (R117; log 8). -/
def step (s : State) : Host.Outcome State Fault Refusal :=
  match s.run with
  | .running =>
    match fetchDecode s with
    | .instr i => exec i s
    | .illegal c => .next (raiseFault s c (fetchOpcode s))
  | .halted => .fault .halted
  | .fault c op => .fault (.stopped c op)

/-- `s` with an instruction word of the opcode table in the three bytes at pc, and `run` Running, so that the next
step fetches it. A program comes to run by the loader's filling of memory before reset is released (R243; log 9). -/
def State.withFetchWord (s : State) (nbits w : Nat) : State :=
  { s with mem := placeBytes s.mem s.pc (tableWordBytes nbits w), run := .running }

end Sys2Proof.Machine
end

