-- ==== Sys2Proof/Machine/ProgramFile.lean ====
section
/-! DEFINITION. The program file that the loader, an external collaborator, turns into IMAGE (spec R98): one byte a line,
written as 8 characters 0 or 1, the first being bit 7 (R5, D22). A file is given as its list of lines, each a list of
characters. What the spec does not describe, a bad line or an oversized file, has no result (R99, U11; log 16). -/

namespace Sys2Proof.Machine

/-- A binary digit's value. -/
def bitOfChar (c : Char) : Option Nat := if c = '0' then some 0 else if c = '1' then some 1 else none

/-- The number that binary digits write, most significant first, with `acc` what stands to their left. -/
def readBits (acc : Nat) : List Char → Option Nat
  | [] => some acc
  | c :: cs =>
    match bitOfChar c with
    | some b => readBits (2 * acc + b) cs
    | none => none

/-- A space or a tab. -/
def isBlankChar (c : Char) : Bool := c == ' ' || c == '\t'

/-- A line without its trailing comment, and without the blanks around what is left. PRESUMED: the spec does not say
that blanks before the comment or the literal are ignored (log 17; safe). -/
def stripLine (line : List Char) : List Char :=
  (((line.takeWhile fun c => c != '#').dropWhile isBlankChar).reverse.dropWhile isBlankChar).reverse

/-- What a line of the file is (R98). -/
inductive FileLine where
  /-- Blank after stripping: skipped. -/
  | skipped
  /-- An 8-character binary literal. -/
  | byte (v : Byte)
  /-- Anything else: outside the spec (R99). -/
  | malformed
deriving DecidableEq, Repr

/-- Read one line (R98). -/
def parseLine (line : List Char) : FileLine :=
  match stripLine line with
  | [] => .skipped
  | cs =>
    if cs.length = 8 then
      match readBits 0 cs with
      | some n => .byte (BitVec.ofNat 8 n)
      | none => .malformed
    else .malformed

/-- The bytes of a file, in file order (R98). -/
def parseProgram : List (List Char) → Option (List Byte)
  | [] => some []
  | line :: lines =>
    match parseLine line with
    | .skipped => parseProgram lines
    | .byte v => (parseProgram lines).map (v :: ·)
    | .malformed => none

/-- The 8-character literal of a byte, bit 7 first (R5, R98). -/
def literalOf (v : Byte) : List Char := (List.range 8).map fun k => if v.getLsbD (7 - k) then '1' else '0'

/-- A line as the format of R98 writes one: a byte's literal or none, between blanks, and a trailing comment or none. -/
structure WrittenLine where
  before : List Char
  byte : Option Byte
  after : List Char
  /-- The comment's text after its `#`. -/
  comment : Option (List Char)
deriving DecidableEq, Repr

/-- The blanks around the literal are spaces and tabs. -/
abbrev blanksOnly (l : WrittenLine) : Prop := l.before.all isBlankChar = true ∧ l.after.all isBlankChar = true

/-- The characters of a written line. -/
def lineText (l : WrittenLine) : List Char :=
  l.before ++ (l.byte.elim [] literalOf ++ (l.after ++ l.comment.elim [] ('#' :: ·)))

/-- The memory that the loader makes of a file (R98, R204, R243). -/
def loadFile (lines : List (List Char)) : Option Memory := (parseProgram lines).bind loadProgram

end Sys2Proof.Machine
end

