-- ==== Sys2Proof/Machine/Cycle.lean ====
section
/-! DEFINITION. The handler of each instruction as one function, `Handler[d.mnemonic]` of spec R110: exec is this
handler followed by step 5 of the cycle. Statements about `pc_set` (R115, R116) are made of it. -/

namespace Sys2Proof.Machine

/-- `Handler[mnemonic](opa, opb)` (R110, R114). -/
def handlerOf : Instr → State → HandlerResult
  | .add opa opb => addHandler opa opb
  | .sub opa opb => subHandler opa opb
  | .mul opa opb => mulHandler opa opb
  | .cmp opa opb => cmpHandler opa opb
  | .hlt => hltHandler
  | .ldi opa opb => ldiHandler opa opb
  | .prn opa => prnHandler opa
  | .push opa => pushHandler opa
  | .pop opa => popHandler opa
  | .call opa => callHandler opa
  | .ret => retHandler
  | .jmp opa => jmpHandler opa
  | .jeq opa => jeqHandler opa
  | .jne opa => jneHandler opa

/-- The operand count of an instruction, read from its opcode byte (R93, R116). -/
def operandCount (i : Instr) : Nat := operandCountField (opcodeOf (mnemonicOf i))

end Sys2Proof.Machine
end

