-- ==== Sys2Proof/Machine/Ports.lean ====
section
/-! DEFINITION. What the block shows at its ports in a cycle, as functions of the state (spec R195 to R201), and what
the host makes of an end state and of a trace line (R205, R206). The ports are the spec's decision D12; nothing here
has an effect on execution (R201, R202). Wires' timing, clk and rst as levels are left out (log 11). -/

namespace Sys2Proof.Machine

/-- Status output `halted` (R199). -/
def haltedOut (s : State) : Bool := s.run == .halted

/-- Status outputs `fault`, `fault_cause` and `fault_opcode`: the pair while `fault` is 1, none while it is 0 (R199). -/
def faultOut (s : State) : Option (BitVec 2 × Byte) :=
  match s.run with
  | .fault c op => some (causeCode c, op)
  | .running => none
  | .halted => none

/-- Debug output `dbg_pc` (R201). -/
def dbgPc (s : State) : Byte := s.pc

/-- Debug output `dbg_fl` (R31, R201). -/
def dbgFl (s : State) : Byte := flagByte s.fl

/-- Debug outputs `dbg_reg[0..7]` (R201). -/
def dbgReg (s : State) (i : RegIndex) : Byte := readReg s i

/-- What an instruction presents on `out_data`: PRN its register's byte, any other nothing (R198). -/
def handlerOutput (i : Instr) (s : State) : Option Byte :=
  match i with
  | .prn opa => some (readOperand s opa)
  | .add _ _ => none
  | .sub _ _ => none
  | .mul _ _ => none
  | .cmp _ _ => none
  | .hlt => none
  | .ldi _ _ => none
  | .push _ => none
  | .pop _ => none
  | .call _ => none
  | .ret => none
  | .jmp _ => none
  | .jeq _ => none
  | .jne _ => none

/-- What the cycle from `s` presents on `out_data` with `out_valid` = 1; none while `out_valid` is 0 (R198). -/
def outPort (s : State) : Option Byte :=
  match s.run with
  | .running =>
    match fetchDecode s with
    | .instr i => handlerOutput i s
    | .illegal _ => none
  | .halted => none
  | .fault _ _ => none

/-- One access on the memory port (R196). -/
inductive BusAccess where
  /-- An address is presented and the memory's byte is taken. -/
  | read (addr : Byte)
  /-- Address and data are presented with `mem_we` = 1. -/
  | write (addr value : Byte)
deriving DecidableEq, Repr

/-- The opcode read, then the declared operand reads in ascending order (R58, R111, R113). -/
def fetchAccesses (s : State) : List BusAccess :=
  .read s.pc :: (List.range (operandCountField (fetchOpcode s))).map fun k => .read (s.pc + BitVec.ofNat 8 (k + 1))

/-- A handler's own access: the four stack instructions make one each, no other makes any (R51, R58). -/
def handlerAccesses (i : Instr) (s : State) : List BusAccess :=
  match i with
  | .push opa => [.write (pushAddr s) (readOperand (decrementSp s) opa)]
  | .call _ => [.write (pushAddr s) (s.pc + 2)]
  | .pop _ => [.read (sp s)]
  | .ret => [.read (sp s)]
  | .add _ _ => []
  | .sub _ _ => []
  | .mul _ _ => []
  | .cmp _ _ => []
  | .hlt => []
  | .ldi _ _ => []
  | .prn _ => []
  | .jmp _ => []
  | .jeq _ => []
  | .jne _ => []

/-- Every access on the memory port in the cycle from `s`, in order (R58). A decode failure reads no operand (R112);
an unsupported ALU operation reads those its count declares (R114); a stopped block makes no access (R32). -/
def cycleAccesses (s : State) : List BusAccess :=
  match s.run with
  | .running =>
    match fetchDecode s with
    | .instr i => fetchAccesses s ++ handlerAccesses i s
    | .illegal .decodeFailure => [.read s.pc]
    | .illegal .unsupportedAluOperation => fetchAccesses s
  | .halted => []
  | .fault _ _ => []

/-- What the accesses of a list do to memory: a read changes nothing (R52, R53). -/
def applyAccesses (m : Memory) : List BusAccess → Memory
  | [] => m
  | .read _ :: as => applyAccesses m as
  | .write a v :: as => applyAccesses (memWrite m a v) as

/-- The host's exit status for an end state; a running block has none yet (R205). UNVERIFIED: the status of an
unsupported ALU operation is the spec's decision D18 (log 16; host side only). -/
def exitStatus : RunState → Option Nat
  | .running => none
  | .halted => some 0
  | .fault _ _ => some 1

/-- The data of one trace line: pc, the three bytes at pc, pc+1, pc+2, and the registers, from the state before the
cycle's fetch (R206). Its text layout is not given (U14; log 16). -/
structure TraceRecord where
  pc : Byte
  bytes : List Byte
  regs : List Byte
deriving DecidableEq, Repr

/-- The trace data of the cycle from `s`; reading it changes nothing (R206). -/
def traceRecord (s : State) : TraceRecord :=
  ⟨s.pc, [loadByte s s.pc, loadByte s (s.pc + 1), loadByte s (s.pc + 2)], s.x.toList⟩

end Sys2Proof.Machine
end

