-- ==== Sys2Proof/Safety.lean ====
section
/-! DEFINITION. The terms in which statements speak: what an instruction leaves unchanged, and the invariant of the
machine. -/

namespace Sys2Proof.Machine

/-- Every general register outside `D` reads as before. -/
def RegsUnchangedExcept (D : List RegIndex) (s t : State) : Prop := ∀ r, r ∉ D → readReg t r = readReg s r

/-- Every location of memory reads as before. -/
def MemUnchanged (s t : State) : Prop := ∀ a, loadByte t a = loadByte s a

/-- Every location of memory but `addr` reads as before. -/
def MemUnchangedExcept (addr : Byte) (s t : State) : Prop := ∀ a, a ≠ addr → loadByte t a = loadByte s a

/-- FL, the run state and the output log are as before. -/
def ControlUnchanged (s t : State) : Prop := t.fl = s.fl ∧ t.run = s.run ∧ t.out = s.out

/-- A Fault records the byte that pc still addresses and the cause that byte reports (R215, R217). -/
def FaultRecordFits (s : State) : Prop :=
  ∀ c op, s.run = .fault c op → loadByte s s.pc = op ∧ decodeOpcode op = .illegal c

/-- In Halted, the byte before pc is HLT's opcode (R121; it rests on the spec's decision D5, log 3). -/
def HaltedAfterHlt (s : State) : Prop := s.run = .halted → loadByte s (s.pc - 1) = opcodeOf .hlt

/-- The invariant every step keeps: memory is in canonical form, and the end states say truly how they were entered. -/
def Inv (s : State) : Prop := s.mem.wf ∧ FaultRecordFits s ∧ HaltedAfterHlt s

/-- A run that has not faulted. -/
def NotFaulted (s : State) : Prop := ∀ c op, s.run ≠ .fault c op

end Sys2Proof.Machine
end

