-- ==== Sys2Proof/WellFormed.lean ====
section
/-! DEFINITION. The form in which an assembler writes an instruction: bits 7 to 3 of every register operand byte are 0
(spec R96). It is NOT a condition for running: every operand byte is legal and bits 7 to 3 are ignored (R24, R92), so
an ill-formed instruction runs as its canonical form does, and no statement about running needs this check (log 13). -/

namespace Sys2Proof

/-- Bits 7 to 3 of a register operand byte are 0 (R96). -/
def canonicalOperand (o : Byte) : Bool := decide (o.toNat < 8)

/-- The register operand byte that names the same register with bits 7 to 3 zero (R24, R96). -/
def canonicalByte (o : Byte) : Byte := o &&& 7

/-- Every register operand byte is as the assembler writes it; LDI's immediate is free (R84, R96). -/
def Instr.wellFormed : Instr → Bool
  | .add opa opb => canonicalOperand opa && canonicalOperand opb
  | .sub opa opb => canonicalOperand opa && canonicalOperand opb
  | .mul opa opb => canonicalOperand opa && canonicalOperand opb
  | .cmp opa opb => canonicalOperand opa && canonicalOperand opb
  | .hlt => true
  | .ldi opa _ => canonicalOperand opa
  | .prn opa => canonicalOperand opa
  | .push opa => canonicalOperand opa
  | .pop opa => canonicalOperand opa
  | .call opa => canonicalOperand opa
  | .ret => true
  | .jmp opa => canonicalOperand opa
  | .jeq opa => canonicalOperand opa
  | .jne opa => canonicalOperand opa

/-- The instruction an assembler writes for this one: the ignored bits of its register operands cleared (R92, R96). -/
def Instr.canonical : Instr → Instr
  | .add opa opb => .add (canonicalByte opa) (canonicalByte opb)
  | .sub opa opb => .sub (canonicalByte opa) (canonicalByte opb)
  | .mul opa opb => .mul (canonicalByte opa) (canonicalByte opb)
  | .cmp opa opb => .cmp (canonicalByte opa) (canonicalByte opb)
  | .hlt => .hlt
  | .ldi opa opb => .ldi (canonicalByte opa) opb
  | .prn opa => .prn (canonicalByte opa)
  | .push opa => .push (canonicalByte opa)
  | .pop opa => .pop (canonicalByte opa)
  | .call opa => .call (canonicalByte opa)
  | .ret => .ret
  | .jmp opa => .jmp (canonicalByte opa)
  | .jeq opa => .jeq (canonicalByte opa)
  | .jne opa => .jne (canonicalByte opa)

end Sys2Proof
end

