-- ==== Sys2Proof/Certificates/Slice0/Obligations.lean ====
section
/-! DEFINITION. The statements for the provers. Each docstring names the rule of spec/ it formalises, or, where it rests
on a decision the spec marks as its own or on a choice of the model, that decision and its log entry. -/

open Sys2Proof Sys2Proof.Machine

/-! ### Encoding and decoding -/

/-- R80, R83, R86 (opcode bytes: the spec's decision D1, log 1): decoding the bytes of ANY instruction, with every
operand byte at every value and whatever follows, gives it back with what followed. -/
def Obligations.DecodeInvertsEncode : Prop :=
  ∀ (i : Instr) (rest : List Byte), decodeBytes (encode i ++ rest) = .instr i rest

/-- R83, R88 (D1, D2, log 1): the whole opcode byte is the key, so a list of bytes that decodes to an instruction IS that
instruction's encoding followed by the rest; no other bytes decode to it. -/
def Obligations.OnlyTheEncodingDecodes : Prop :=
  ∀ (bytes : List Byte) (i : Instr) (rest : List Byte), decodeBytes bytes = .instr i rest → bytes = encode i ++ rest

/-- R86, R94 (D1, log 1): words written out bit by bit from the encoding lines of the instruction rules, one or two of
each family. -/
def Obligations.WrittenOutWordsDecode : Prop :=
  decodeBytes [0b10100000, 0b00000001, 0b00000010] = .instr (.add 1 2) [] ∧
  decodeBytes [0b10100111, 0b00000011, 0b00000100] = .instr (.cmp 3 4) [] ∧
  decodeBytes [0b00000001] = .instr .hlt [] ∧
  decodeBytes [0b10000010, 0b00000101, 0b11111111] = .instr (.ldi 5 255) [] ∧
  decodeBytes [0b01000111, 0b00000110] = .instr (.prn 6) [] ∧
  decodeBytes [0b01000101, 0b00000111] = .instr (.push 7) [] ∧
  decodeBytes [0b01010000, 0b00000001] = .instr (.call 1) [] ∧
  decodeBytes [0b00010001] = .instr .ret []

/-- R81, R83, R94 (D1, log 1): the descriptor of a defined opcode byte is read from the byte's own fields, the operand
count is at most 2, bit 5 is 1 exactly for the four ALU operations and bit 4 exactly for the five that set pc. -/
def Obligations.DescriptorIsReadFromTheFields : Prop :=
  ∀ (ir : Byte) (d : Descriptor), decodeOpcode ir = .ok d →
    d.operandCount = ir.toNat / 64 ∧ d.operandCount ≤ 2 ∧
    (d.isAluOp = true ↔ ir.toNat / 32 % 2 = 1) ∧ (d.setsPc = true ↔ ir.toNat / 16 % 2 = 1) ∧
    (d.isAluOp = true ↔ d.mnemonic ∈ [Mnemonic.add, .sub, .mul, .cmp]) ∧
    (d.setsPc = true ↔ d.mnemonic ∈ [Mnemonic.call, .ret, .jmp, .jeq, .jne])

/-! ### The cycle -/

/-- R110: the whole step function. From reset `run` is Running and pc is 0; there is a next state only while Running; an
undefined opcode byte changes `run` and nothing else; a defined one runs its handler on the operand bytes and then pc
advances by n + 1 modulo 256 unless the handler set it, n being bits 7 to 6 of the opcode byte. -/
def Obligations.StepIsTheNumberedCycle : Prop :=
  (State.reset.run = .running ∧ State.reset.pc = 0) ∧
  (∀ s t : State, step s = .next t → s.run = .running) ∧
  ∀ s : State, s.run = .running →
    let ir := loadByte s s.pc
    (∀ c, decodeOpcode ir = .illegal c → step s = .next { s with run := .fault c ir }) ∧
    (∀ d, decodeOpcode ir = .ok d →
      let r := handlerOf (instrOf d.mnemonic (loadByte s (s.pc + 1)) (loadByte s (s.pc + 2))) s
      let n := ir.toNat / 64
      step s = .next (if r.pcSet then r.state
        else { r.state with pc := BitVec.ofNat 8 ((r.state.pc.toNat + n + 1) % 256) }))

/-- R110, R114: while Running, when the bytes at pc decode to an instruction, the step is exec of that instruction at
that same state, with nothing added around it. -/
def Obligations.StepRunsTheDecodedInstruction : Prop :=
  ∀ (s : State) (i : Instr), s.run = .running →
    decode (loadByte s s.pc) (loadByte s (s.pc + 1)) (loadByte s (s.pc + 2)) = .instr i → step s = exec i s

/-- R116: the update of pc follows the handler's result, with n read from bits 7 to 6 of the instruction's opcode byte and
pc on the right being this instruction's address; so a JEQ or JNE that is not taken advances by 2. -/
def Obligations.PcUpdateFollowsTheHandlerResult : Prop :=
  (∀ (i : Instr) (s : State),
    let r := handlerOf i s
    let n := (opcodeOf (mnemonicOf i)).toNat / 64
    exec i s = .next (if r.pcSet then r.state
      else { r.state with pc := BitVec.ofNat 8 ((s.pc.toNat + n + 1) % 256) })) ∧
  (∀ (opa : Byte) (s : State), s.fl ≠ .equal →
    exec (.jeq opa) s = .next { s with pc := BitVec.ofNat 8 ((s.pc.toNat + 2) % 256) }) ∧
  (∀ (opa : Byte) (s : State), s.fl = .equal →
    exec (.jne opa) s = .next { s with pc := BitVec.ofNat 8 ((s.pc.toNat + 2) % 256) })

/-- R115 (HLT's false rests on the spec's decision D5, log 3): when each handler reports that it set pc; a handler that
reports false has left pc alone (R26). -/
def Obligations.HandlersReportWhetherTheySetPc : Prop :=
  ∀ (i : Instr) (s : State),
    ((handlerOf i s).pcSet = true ↔
      (∃ o, i = .call o) ∨ i = .ret ∨ (∃ o, i = .jmp o) ∨ (∃ o, i = .jeq o ∧ s.fl = .equal) ∨
        (∃ o, i = .jne o ∧ s.fl ≠ .equal)) ∧
    ((handlerOf i s).pcSet = false → (handlerOf i s).state.pc = s.pc)

/-- R118: from a running state a cycle either completes as exec of one instruction, without faulting, or ends in a fault
that changed nothing but `run`; and no handler faults part-way, in any state. -/
def Obligations.CycleCompletesOrFaultsPrecisely : Prop :=
  (∀ s : State, s.run = .running →
    (∃ i t, decode (loadByte s s.pc) (loadByte s (s.pc + 1)) (loadByte s (s.pc + 2)) = .instr i ∧
      exec i s = .next t ∧ step s = .next t ∧ NotFaulted t) ∨
    (∃ c, decodeOpcode (loadByte s s.pc) = .illegal c ∧
      step s = .next { s with run := .fault c (loadByte s s.pc) })) ∧
  (∀ (i : Instr) (s : State), ∃ t, exec i s = .next t ∧ (NotFaulted s → NotFaulted t))

/-- R117, R32, R252 (no step out of Halted or Fault is the spec's decision D15, answered by a named outcome of the model,
log 8): the block has a next state exactly while it is running, and each stop is named for its end state. -/
def Obligations.StepExactlyWhileRunning : Prop :=
  (∀ s : State, (∃ t, step s = .next t) ↔ s.run = .running) ∧
  (∀ s : State, s.run = .halted → step s = .fault .halted) ∧
  (∀ (s : State) (c : Cause) (op : Byte), s.run = .fault c op → step s = .fault (.stopped c op))

/-- R27: every pc value is a legal instruction address: at any pc, when the bytes at pc, pc + 1 and pc + 2 modulo 256 are
an instruction, the step runs it and the next state has not faulted (a step faults only where the opcode byte is
undefined); an instruction at 0xFF has its operands at 0x00 and 0x01, and execution goes on modulo 256 from there. -/
def Obligations.PcWrapsPastTheTopOfMemory : Prop :=
  (∀ (s : State) (i : Instr), s.run = .running →
    decode (loadByte s s.pc) (loadByte s (BitVec.ofNat 8 ((s.pc.toNat + 1) % 256)))
      (loadByte s (BitVec.ofNat 8 ((s.pc.toNat + 2) % 256))) = .instr i →
    ∃ t, step s = .next t ∧ exec i s = .next t ∧ NotFaulted t) ∧
  (∀ s t : State, step s = .next t → ¬NotFaulted t → ∃ c, decodeOpcode (loadByte s s.pc) = .illegal c) ∧
  (∀ (s : State) (i : Instr), s.run = .running → s.pc = 0xFF →
    decode (loadByte s 0xFF) (loadByte s 0x00) (loadByte s 0x01) = .instr i →
    ∃ t, step s = .next t ∧ exec i s = .next t ∧ NotFaulted t) ∧
  (∀ (i : Instr) (s t : State), (handlerOf i s).pcSet = false → exec i s = .next t →
    t.pc.toNat = (s.pc.toNat + (operandBytes i).length + 1) % 256)

/-! ### Undefined opcodes -/

/-- R89, R90, R215, R217 (which bytes: D1, log 1; which cause: D3, log 2): on a byte that is none of the 14, the cycle
sets `run` to Fault with the cause of R89 and the byte, and changes nothing else, pc included. -/
def Obligations.UndefinedOpcodeTakesFaultEntry : Prop :=
  ∀ s : State, s.run = .running →
    let ir := loadByte s s.pc
    ir ∉ ([0x01, 0x11, 0x45, 0x46, 0x47, 0x50, 0x54, 0x55, 0x56, 0x82, 0xA0, 0xA1, 0xA2, 0xA7] : List Byte) →
    let cause : Cause := if ir.toNat / 64 = 3 then .decodeFailure
      else if ir.toNat / 32 % 2 = 1 then .unsupportedAluOperation else .decodeFailure
    step s = .next { s with run := .fault cause ir }

/-- R216, R218 (a rule the spec derives): none of the 14 instructions can fault, whatever its operands and whatever the
state; each completes, and only HLT changes the run state. -/
def Obligations.DefinedInstructionsNeverFault : Prop :=
  ∀ (i : Instr) (s : State), ∃ t, exec i s = .next t ∧ t.run = if i = .hlt then .halted else s.run

/-- R32, R151 (HLT's byte: D1, log 1): a cycle ends in Halted only by running HLT. -/
def Obligations.HaltedOnlyByHlt : Prop :=
  ∀ s t : State, step s = .next t → t.run = .halted → loadByte s s.pc = 0x01

/-! ### Registers, operands and memory -/

/-- R24: a register operand byte names register `o mod 8`, that is, its bits 2 to 0; bits 7 to 3 are ignored by every
instruction; 0x0F names register 7 and 0x08 register 0; no register operand value faults. -/
def Obligations.RegisterOperandIsTakenModulo8 : Prop :=
  (∀ o : Byte, (ridx o).val = o.toNat % 8 ∧ (ridx o).val = (o.extractLsb' 0 3).toNat) ∧
  ridx 0x0F = 7 ∧ ridx 0x08 = 0 ∧
  (∀ (i : Instr) (s : State), exec i.canonical s = exec i s) ∧
  (∀ (i : Instr) (s : State), ∃ t, exec i s = .next t ∧ (NotFaulted s → NotFaulted t))

/-- R21, R248 (a rule the spec derives): SP is register 7, so an LDI of register 7 moves the stack at once: a PUSH that
follows stores below the new value. -/
def Obligations.LoadingRegister7MovesTheStack : Prop :=
  ∀ (s : State) (o v p : Byte), ridx o = 7 → ridx p ≠ 7 →
    ∃ t u, exec (.ldi o v) s = .next t ∧ exec (.push p) t = .next u ∧
      loadByte u (v - 1) = readReg s (ridx p) ∧ readReg u 7 = v - 1

/-- R52: a read takes the address modulo 256 and returns the value most recently written to that location, or the IMAGE
value if nothing has written it; the instructions that read data change no memory. -/
def Obligations.MemReadReturnsTheLatestWrite : Prop :=
  (∀ (image : Memory) (writes : List (Nat × Nat)) (addr : Nat),
    memRead (writes.foldl (fun m w => memWrite m (BitVec.ofNat 8 w.1) (BitVec.ofNat 8 w.2)) image)
        (BitVec.ofNat 8 addr) =
      match writes.reverse.find? (fun w => w.1 % 256 == addr % 256) with
      | some w => BitVec.ofNat 8 (w.2 % 256)
      | none => memRead image (BitVec.ofNat 8 (addr % 256))) ∧
  (∀ (opa : Byte) (s t : State), exec (.pop opa) s = .next t → t.mem = s.mem) ∧
  (∀ s t : State, exec .ret s = .next t → t.mem = s.mem)

/-- R53: a write sets the byte at the address modulo 256 to the value modulo 256 and changes no other location and no
other state; it works at every location. -/
def Obligations.MemWriteTouchesExactlyOneByte : Prop :=
  ∀ (s : State) (addr v : Nat),
    let t := storeByte s (BitVec.ofNat 8 addr) (BitVec.ofNat 8 v)
    (loadByte t (BitVec.ofNat 8 (addr % 256))).toNat = v % 256 ∧
    (∀ a : Byte, a.toNat ≠ addr % 256 → loadByte t a = loadByte s a) ∧
    (∀ r, readReg t r = readReg s r) ∧ t.pc = s.pc ∧ t.fl = s.fl ∧ t.run = s.run ∧ t.out = s.out

/-- The model's own representation of memory (log 6): two memories in canonical form that read the same at every
location are the same data. -/
def Obligations.CanonicalMemoryIsDeterminedByReads : Prop :=
  ∀ m m' : Memory, m.wf → m'.wf → (∀ a, memRead m a = memRead m' a) → m = m'

/-! ### Arithmetic and compare -/

/-- R131 without its encoding line: ADD completes in every state; `x[a]` is the sum modulo 256 of the old values, pc
advances by 3 modulo 256, and nothing else changes. -/
def Obligations.AddWritesTheSumModulo256 : Prop :=
  ∀ (opa opb : Byte) (s : State), ∃ t, exec (.add opa opb) s = .next t ∧
    (readReg t (ridx opa)).toNat = ((readReg s (ridx opa)).toNat + (readReg s (ridx opb)).toNat) % 256 ∧
    t.pc.toNat = (s.pc.toNat + 3) % 256 ∧
    RegsUnchangedExcept [ridx opa] s t ∧ ControlUnchanged s t ∧ MemUnchanged s t

/-- R132 without its encoding line: SUB completes in every state; `x[a]` is the non-negative remainder of the difference
of the old values, pc advances by 3 modulo 256, and nothing else changes. -/
def Obligations.SubWritesTheDifferenceModulo256 : Prop :=
  ∀ (opa opb : Byte) (s : State), ∃ t, exec (.sub opa opb) s = .next t ∧
    ((readReg t (ridx opa)).toNat : Int) =
      (((readReg s (ridx opa)).toNat : Int) - ((readReg s (ridx opb)).toNat : Int)) % 256 ∧
    t.pc.toNat = (s.pc.toNat + 3) % 256 ∧
    RegsUnchangedExcept [ridx opa] s t ∧ ControlUnchanged s t ∧ MemUnchanged s t

/-- R133 without its encoding line: MUL completes in every state; `x[a]` is the low 8 bits of the product of the old
values, pc advances by 3 modulo 256, and nothing else changes. -/
def Obligations.MulWritesTheProductModulo256 : Prop :=
  ∀ (opa opb : Byte) (s : State), ∃ t, exec (.mul opa opb) s = .next t ∧
    (readReg t (ridx opa)).toNat = ((readReg s (ridx opa)).toNat * (readReg s (ridx opb)).toNat) % 256 ∧
    t.pc.toNat = (s.pc.toNat + 3) % 256 ∧
    RegsUnchangedExcept [ridx opa] s t ∧ ControlUnchanged s t ∧ MemUnchanged s t

/-- R134 without its encoding line: CMP completes in every state; FL is E, G or L by the unsigned comparison, whatever it
was, pc advances by 3 modulo 256, and no register, memory, run state or output changes. -/
def Obligations.CmpSetsExactlyTheOutcomeFlag : Prop :=
  ∀ (opa opb : Byte) (s : State), ∃ t, exec (.cmp opa opb) s = .next t ∧
    (t.fl = .equal ↔ (readReg s (ridx opa)).toNat = (readReg s (ridx opb)).toNat) ∧
    (t.fl = .greater ↔ (readReg s (ridx opa)).toNat > (readReg s (ridx opb)).toNat) ∧
    (t.fl = .less ↔ (readReg s (ridx opa)).toNat < (readReg s (ridx opb)).toNat) ∧
    t.fl ≠ .none ∧
    t.pc.toNat = (s.pc.toNat + 3) % 256 ∧
    RegsUnchangedExcept [] s t ∧ t.run = s.run ∧ t.out = s.out ∧ MemUnchanged s t

/-- R136: the complete outcome table of a compare, with what JEQ and JNE then do. -/
def Obligations.CompareOutcomeTable : Prop :=
  ∀ (opa opb o : Byte) (s : State),
    let a := (readReg s (ridx opa)).toNat
    let b := (readReg s (ridx opb)).toNat
    ∃ t, exec (.cmp opa opb) s = .next t ∧
      t.fl = (if a = b then .equal else if a > b then .greater else .less) ∧
      exec (.jeq o) t = .next { t with pc := if a = b then readReg t (ridx o) else t.pc + 2 } ∧
      exec (.jne o) t = .next { t with pc := if a = b then t.pc + 2 else readReg t (ridx o) }

/-- R135's sentence on ADD and SUB: SUB undoes ADD when the two registers differ. -/
def Obligations.SubUndoesAdd : Prop :=
  ∀ (opa opb : Byte) (s : State), ridx opa ≠ ridx opb →
    ∃ t u, exec (.add opa opb) s = .next t ∧ exec (.sub opa opb) t = .next u ∧
      RegsUnchangedExcept [] s u ∧ u.pc.toNat = (s.pc.toNat + 6) % 256 ∧ ControlUnchanged s u ∧ MemUnchanged s u

/-- R29 (its debug byte is the spec's decision D6, log 5): CMP alone writes FL and never leaves None; JEQ and JNE alone
read it, and only whether it is E; every other instruction does the same whatever FL holds, CMP leaves the same FL
whatever it held before, and every instruction but CMP leaves FL as it finds it. -/
def Obligations.FlagsWrittenByCmpReadByJumps : Prop :=
  (∀ (i : Instr) (s t : State), exec i s = .next t → (∀ a b, i ≠ .cmp a b) → t.fl = s.fl) ∧
  (∀ (a b : Byte) (s t : State), exec (.cmp a b) s = .next t → t.fl ≠ .none) ∧
  (∀ (i : Instr) (s t : State) (f : Flag), exec i s = .next t →
    ((∀ o, i ≠ .jeq o ∧ i ≠ .jne o) ∨ (f = .equal ↔ s.fl = .equal)) →
    ∃ u, exec i { s with fl := f } = .next u ∧ u.x = t.x ∧ u.pc = t.pc ∧ u.run = t.run ∧ u.out = t.out ∧
      u.mem = t.mem ∧ u.fl = match i with | .cmp _ _ => t.fl | _ => f) ∧
  (∀ f g : Flag, flagByte f = flagByte g → f = g)

/-! ### HLT, LDI, PRN -/

/-- R151 (pc + 1 is the spec's decision D5, log 3): HLT completes in every state with `run` Halted, pc advances by 1 modulo
256, and nothing else changes. -/
def Obligations.HltHaltsAndAdvancesPc : Prop :=
  ∀ s : State, ∃ t, exec .hlt s = .next t ∧ t.run = .halted ∧ t.pc.toNat = (s.pc.toNat + 1) % 256 ∧
    RegsUnchangedExcept [] s t ∧ t.fl = s.fl ∧ t.out = s.out ∧ MemUnchanged s t

/-- R156 without its encoding line: LDI completes in every state; the register holds the whole immediate byte, pc
advances by 3 modulo 256, and nothing else changes. -/
def Obligations.LdiLoadsTheWholeImmediate : Prop :=
  ∀ (opa opb : Byte) (s : State), ∃ t, exec (.ldi opa opb) s = .next t ∧
    readReg t (ridx opa) = opb ∧ t.pc.toNat = (s.pc.toNat + 3) % 256 ∧
    RegsUnchangedExcept [ridx opa] s t ∧ ControlUnchanged s t ∧ MemUnchanged s t

/-- R157 without its encoding line (an output that cannot block is the spec's decision D11, log 10): PRN completes in
every state; the register's byte is appended to the output log, pc advances by 2 modulo 256, and nothing else
changes. -/
def Obligations.PrnAppendsTheRegister : Prop :=
  ∀ (opa : Byte) (s : State), ∃ t, exec (.prn opa) s = .next t ∧
    t.out = s.out ++ [readReg s (ridx opa)] ∧ t.pc.toNat = (s.pc.toNat + 2) % 256 ∧
    RegsUnchangedExcept [] s t ∧ t.fl = s.fl ∧ t.run = s.run ∧ MemUnchanged s t

/-- The source's property in R156: for any value v and register r, `LDI r,v` followed by `PRN r` outputs v. -/
def Obligations.LdiThenPrnOutputsTheValue : Prop :=
  ∀ (r v : Byte) (s : State), ∃ t u, exec (.ldi r v) s = .next t ∧ exec (.prn r) t = .next u ∧
    u.out = s.out ++ [v]

/-- R35, R198 (the output port is the spec's decision D11, D12, log 10 and 11): in every step the output log grows by
exactly what the output port presents, PRN's byte or nothing. -/
def Obligations.OutputLogGrowsByTheOutputPort : Prop :=
  ∀ s t : State, step s = .next t → t.out = s.out ++ (outPort s).toList

/-! ### Stack -/

/-- R166 without its encoding line (PUSH R7 stores the decremented sp by the spec's decision D9, log 7): PUSH completes in
every state; sp decreases by 1 modulo 256, the byte stored at the new sp is the register read after the decrement, pc
advances by 2, and no other register or byte of memory changes. -/
def Obligations.PushStoresBelowTheStackPointer : Prop :=
  ∀ (opa : Byte) (s : State), ∃ t, exec (.push opa) s = .next t ∧
    (pushAddr s).toNat = ((readReg s 7).toNat + 255) % 256 ∧
    readReg t 7 = pushAddr s ∧
    loadByte t (pushAddr s) = (if ridx opa = 7 then pushAddr s else readReg s (ridx opa)) ∧
    t.pc.toNat = (s.pc.toNat + 2) % 256 ∧
    RegsUnchangedExcept [7] s t ∧ ControlUnchanged s t ∧ MemUnchangedExcept (pushAddr s) s t

/-- R167 without its encoding line (POP R7 increments the loaded byte by the spec's decision D9, log 7): POP completes in
every state; the register takes the byte at sp and sp then increases by 1 modulo 256, pc advances by 2, and no other
register and no byte of memory changes. -/
def Obligations.PopLoadsFromTheStackPointer : Prop :=
  ∀ (opa : Byte) (s : State), ∃ t, exec (.pop opa) s = .next t ∧
    (ridx opa ≠ 7 → readReg t (ridx opa) = loadByte s (readReg s 7) ∧
      (readReg t 7).toNat = ((readReg s 7).toNat + 1) % 256) ∧
    (ridx opa = 7 → (readReg t 7).toNat = ((loadByte s (readReg s 7)).toNat + 1) % 256) ∧
    t.pc.toNat = (s.pc.toNat + 2) % 256 ∧
    RegsUnchangedExcept [ridx opa, 7] s t ∧ ControlUnchanged s t ∧ MemUnchanged s t

/-- R168 (register 7 by the spec's decision D9, log 7): PUSH r then POP r leaves every register as before, for every r;
PUSH b then POP a copies `x[b]` to `x[a]` for a and b other than 7, with sp as before; the pushed byte stays in memory. -/
def Obligations.PushThenPopRoundTrip : Prop :=
  (∀ (r : Byte) (s : State), ∃ t u, exec (.push r) s = .next t ∧ exec (.pop r) t = .next u ∧
    RegsUnchangedExcept [] s u ∧ loadByte u (pushAddr s) = loadByte t (pushAddr s) ∧
    u.pc.toNat = (s.pc.toNat + 4) % 256) ∧
  (∀ (a b : Byte) (s : State), ridx a ≠ 7 → ridx b ≠ 7 →
    ∃ t u, exec (.push b) s = .next t ∧ exec (.pop a) t = .next u ∧
      readReg u (ridx a) = readReg s (ridx b) ∧ RegsUnchangedExcept [ridx a] s u)

/-! ### Control transfer -/

/-- R176 without its encoding line (CALL R7 jumps to the decremented sp by the spec's decision D9, log 7): CALL completes
in every state; sp decreases by 1 modulo 256, the byte stored at the new sp is pc + 2 modulo 256, pc is the register
read after the decrement, and no other register or byte of memory changes. -/
def Obligations.CallPushesTheReturnAddress : Prop :=
  ∀ (opa : Byte) (s : State), ∃ t, exec (.call opa) s = .next t ∧
    (pushAddr s).toNat = ((readReg s 7).toNat + 255) % 256 ∧
    readReg t 7 = pushAddr s ∧
    (loadByte t (pushAddr s)).toNat = (s.pc.toNat + 2) % 256 ∧
    t.pc = (if ridx opa = 7 then pushAddr s else readReg s (ridx opa)) ∧
    RegsUnchangedExcept [7] s t ∧ ControlUnchanged s t ∧ MemUnchangedExcept (pushAddr s) s t

/-- R177 without its encoding line: RET completes in every state; pc is the byte at sp, sp increases by 1 modulo 256, and
no other register and no byte of memory changes. -/
def Obligations.RetPopsThePc : Prop :=
  ∀ s : State, ∃ t, exec .ret s = .next t ∧
    t.pc = loadByte s (readReg s 7) ∧ (readReg t 7).toNat = ((readReg s 7).toNat + 1) % 256 ∧
    RegsUnchangedExcept [7] s t ∧ ControlUnchanged s t ∧ MemUnchanged s t

/-- The source's property in R177: a RET reached from a CALL with the stack pointer and the saved byte as the CALL left
them resumes at the CALL's address plus 2, with sp as before the CALL. -/
def Obligations.CallThenReturnResumesAfterTheCall : Prop :=
  ∀ (opa : Byte) (s : State), ∃ t, exec (.call opa) s = .next t ∧
    ∀ u : State, readReg u 7 = readReg t 7 → loadByte u (readReg t 7) = loadByte t (readReg t 7) →
      ∃ v, exec .ret u = .next v ∧ v.pc.toNat = (s.pc.toNat + 2) % 256 ∧ readReg v 7 = readReg s 7

/-- R178 without its encoding line: JMP completes in every state; pc is the register, and nothing else changes. -/
def Obligations.JmpSetsPcFromTheRegister : Prop :=
  ∀ (opa : Byte) (s : State), ∃ t, exec (.jmp opa) s = .next t ∧ t.pc = readReg s (ridx opa) ∧
    RegsUnchangedExcept [] s t ∧ ControlUnchanged s t ∧ MemUnchanged s t

/-- R181: JEQ branches if and only if FL is E and JNE if and only if it is not; when not taken pc advances by 2 modulo 256
and nothing else changes; a taken branch to the fall-through address cannot be told from one not taken. -/
def Obligations.BranchIfAndOnlyIfTheEqualFlag : Prop :=
  (∀ (opa : Byte) (s : State),
    exec (.jeq opa) s = .next { s with
      pc := if s.fl = .equal then readReg s (ridx opa) else BitVec.ofNat 8 ((s.pc.toNat + 2) % 256) }) ∧
  (∀ (opa : Byte) (s : State),
    exec (.jne opa) s = .next { s with
      pc := if s.fl = .equal then BitVec.ofNat 8 ((s.pc.toNat + 2) % 256) else readReg s (ridx opa) }) ∧
  (∀ (opa : Byte) (s : State), (readReg s (ridx opa)).toNat = (s.pc.toNat + 2) % 256 →
    exec (.jeq opa) s = .next { s with pc := readReg s (ridx opa) } ∧
    exec (.jne opa) s = .next { s with pc := readReg s (ridx opa) })

/-! ### Whole-machine rules -/

/-- R51 (a rule the spec derives): the only byte of memory an instruction can change is the one below sp, and only PUSH
and CALL can change it. -/
def Obligations.OnlyPushAndCallWriteMemory : Prop :=
  ∀ (i : Instr) (s t : State), exec i s = .next t → ∀ a, loadByte t a ≠ loadByte s a →
    a = pushAddr s ∧ ∃ o, i = .push o ∨ i = .call o

/-- R51, R58, R196 (the port is the spec's decision D12, log 11): memory after a step is memory before it with exactly
the writes that the cycle makes on the memory port. -/
def Obligations.MemoryFollowsTheMemoryPort : Prop :=
  ∀ s t : State, step s = .next t → t.mem = applyAccesses s.mem (cycleAccesses s)

/-- R66 (its worked case is the spec's derivation): a PUSH that stores on the next instruction's opcode byte is seen by
the very next fetch, and a PUSH that stores on its own operand byte runs with the byte read before. -/
def Obligations.StackWriteIsSeenByTheNextFetch : Prop :=
  ∀ (s : State) (o : Byte), s.run = .running → loadByte s s.pc = 0x45 → loadByte s (s.pc + 1) = o →
    step s = exec (.push o) s ∧
    (ridx o ≠ 7 → pushAddr s = s.pc + 2 → ∃ t, step s = .next t ∧
      ∀ i, decode (readReg s (ridx o)) (loadByte s (s.pc + 3)) (loadByte s (s.pc + 4)) = .instr i →
        step t = exec i t)

/-- R199 (codes and outputs: the spec's decisions D4, D12, D15, log 2 and 8): `halted` is 1 exactly when `run` is Halted;
`fault` is 1 exactly when `run` is Fault, and then shows the recorded opcode and code 1 for DecodeFailure, 2 for
UnsupportedAluOperation; the two are never both 1, no step leaves either, and a step that raises `fault` shows the byte
that was fetched and the code of that byte's cause. -/
def Obligations.StatusOutputsTellTheEndState : Prop :=
  (∀ s : State, haltedOut s = true ↔ s.run = .halted) ∧
  (∀ (s : State) (k : BitVec 2) (op : Byte), faultOut s = some (k, op) ↔
    (s.run = .fault .decodeFailure op ∧ k = 1) ∨ (s.run = .fault .unsupportedAluOperation op ∧ k = 2)) ∧
  (∀ s : State, ¬(haltedOut s = true ∧ (faultOut s).isSome = true)) ∧
  (∀ s t : State, (haltedOut s = true ∨ (faultOut s).isSome = true) → step s ≠ .next t) ∧
  (∀ (s t : State) (k : BitVec 2) (op : Byte), step s = .next t → faultOut t = some (k, op) →
    op = loadByte s s.pc ∧ t.pc = s.pc ∧
    (k = 1 ∧ decodeOpcode op = .illegal .decodeFailure ∨
      k = 2 ∧ decodeOpcode op = .illegal .unsupportedAluOperation))

/-- Every step keeps the invariant: memory stays in canonical form (log 6), a Fault records the byte pc addresses and the
cause that byte reports (R215, R217), and Halted stands just after HLT's opcode (R121; D5, log 3). -/
def Obligations.EveryStepKeepsTheInvariant : Prop :=
  ∀ s t : State, Inv s → step s = .next t → Inv t

/-! ### Reset, boot and loading -/

/-- The invariant holds after reset, over any IMAGE in canonical form (R38, R64; log 6). -/
def Obligations.InvariantHoldsAfterReset : Prop :=
  Inv State.reset ∧ ∀ image : Memory, image.wf → Inv (State.resetWith image)

/-- R38, R240, R241: reset from any state puts sp to 0xF4, pc to 0 and `run` to Running (the source's values), registers 0
to 6 to 0 (the spec's decision D7, log 4), FL to None (D6, log 5), the output log to empty, and keeps memory (D8, log 6). -/
def Obligations.ResetPutsEveryRegisterToItsValue : Prop :=
  ∀ s : State,
    let t := applyReset s
    readReg t 7 = 0xF4 ∧ t.pc = 0 ∧ t.run = .running ∧ (∀ r : RegIndex, r ≠ 7 → readReg t r = 0) ∧ t.fl = .none ∧
      t.out = [] ∧ t.mem = s.mem

/-- R242: after reset, over any IMAGE, pc is 0 with no vector fetched, and the first instruction executed is the one whose
opcode is at address 0. -/
def Obligations.FirstInstructionIsAtAddress0 : Prop :=
  ∀ image : Memory,
    (State.resetWith image).pc = 0 ∧ (State.resetWith image).mem = image ∧
    (∀ i, decode (memRead image 0) (memRead image 1) (memRead image 2) = .instr i →
      step (State.resetWith image) = exec i (State.resetWith image)) ∧
    (∀ c, decodeOpcode (memRead image 0) = .illegal c →
      step (State.resetWith image) = .next { State.resetWith image with run := .fault c (memRead image 0) })

/-- R64, R204 (zero past the program: the spec's decision D8, log 6; over 256 bytes refused: R99, log 16): the loader
puts the program's bytes at successive addresses from 0 and leaves 0 elsewhere. -/
def Obligations.LoaderPlacesBytesFromAddress0 : Prop :=
  (∀ bytes : List Byte, bytes.length ≤ 256 ↔ (loadProgram bytes).isSome = true) ∧
  (∀ (bytes : List Byte) (m : Memory), loadProgram bytes = some m →
    ∀ a : Byte, memRead m a = bytes.getD a.toNat 0)

/-- R98 (first character is bit 7: R5, the spec's decision D22; blanks around a literal: log 17): a file of lines, each
an 8-character literal or none, between any spaces and tabs, with or without a trailing comment in any mixture, is read
as the bytes of its literals in file order; blank lines and lines holding only a comment are skipped. -/
def Obligations.ProgramFileIsReadByteByByte : Prop :=
  ∀ lines : List WrittenLine, (∀ l ∈ lines, blanksOnly l) →
    parseProgram (lines.map lineText) = some (lines.filterMap fun l => l.byte)

/-- The model's placing of one instruction word (log 9; R111, R113): the next step runs exactly the instruction the
decoder reads from it. -/
def Obligations.PlacedWordIsTheNextInstruction : Prop :=
  ∀ (s : State) (nbits w : Nat) (i : Instr), decodeTableWord nbits w = some i →
    step (s.withFetchWord nbits w) = exec i (s.withFetchWord nbits w)
end

