-- ==== Sys2Proof/Laws/Decode.lean ====
section
/-! SUPPORT. One lemma per decoder function: what it answers on each opcode of the table, and on any other byte. -/

namespace Sys2Proof

/-- The fields of a defined opcode byte are those of its row in the table of R86, R95. -/
theorem decodeOpcode_opcodeOf (m : Mnemonic) :
    decodeOpcode (opcodeOf m) =
      .ok ⟨m, operandCountField (opcodeOf m), aluField (opcodeOf m), setsPcField (opcodeOf m)⟩ := by
  cases m <;> rfl

/-- Field NN of each row, the operand count of the row's format (R86, R87). -/
@[simp] theorem operandCountField_opcodeOf (m : Mnemonic) : operandCountField (opcodeOf m) =
    match m with
    | .add | .sub | .mul | .cmp | .ldi => 2
    | .prn | .push | .pop | .call | .jmp | .jeq | .jne => 1
    | .hlt | .ret => 0 := by
  cases m <;> decide

theorem decode_opcodeOf (m : Mnemonic) (opa opb : Byte) : decode (opcodeOf m) opa opb = .instr (instrOf m opa opb) := by
  simp [decode, decodeOpcode_opcodeOf]

theorem lookupOpcode_some {ir : Byte} {m : Mnemonic} (h : lookupOpcode ir = some m) : opcodeOf m = ir := by
  simpa using List.find?_some h

theorem mem_allMnemonics (m : Mnemonic) : m ∈ allMnemonics := by cases m <;> decide

theorem lookupOpcode_none {ir : Byte} (h : lookupOpcode ir = none) (m : Mnemonic) : opcodeOf m ≠ ir := by
  simpa using List.find?_eq_none.mp h m (mem_allMnemonics m)

/-- What the Decoder can answer: a row whose opcode is this byte, with the byte's own fields, or the cause of R89 for a
byte that is no row's opcode. -/
theorem decodeOpcode_cases (ir : Byte) :
    (∃ m, opcodeOf m = ir ∧ decodeOpcode ir = .ok ⟨m, operandCountField ir, aluField ir, setsPcField ir⟩) ∨
      ((∀ m, opcodeOf m ≠ ir) ∧ decodeOpcode ir = .illegal (illegalCause ir)) := by
  unfold decodeOpcode
  cases h : lookupOpcode ir with
  | some m => exact .inl ⟨m, lookupOpcode_some h, rfl⟩
  | none => exact .inr ⟨lookupOpcode_none h, rfl⟩

/-- What decoding can answer, by the class of the opcode byte. -/
theorem decode_cases (ir opa opb : Byte) :
    (∃ m, opcodeOf m = ir ∧ decode ir opa opb = .instr (instrOf m opa opb)) ∨
      ((∀ m, opcodeOf m ≠ ir) ∧ decodeOpcode ir = .illegal (illegalCause ir) ∧
        decode ir opa opb = .illegal (illegalCause ir)) := by
  unfold decode
  rcases decodeOpcode_cases ir with ⟨m, hm, h⟩ | ⟨hm, h⟩
  · exact .inl ⟨m, hm, by rw [h]⟩
  · exact .inr ⟨hm, h, by rw [h]⟩

@[simp] theorem mnemonicOf_instrOf (m : Mnemonic) (opa opb : Byte) : mnemonicOf (instrOf m opa opb) = m := by
  cases m <;> rfl

theorem canonicalOperand_canonicalByte : ∀ o : Byte, canonicalOperand (canonicalByte o) = true := by decide

end Sys2Proof
end

