-- ==== Sys2Proof/Laws/Memory.lean ====
section
/-! SUPPORT. The memory primitives: a read after a write, and every memory operation keeps the canonical form. -/

namespace Sys2Proof.Machine

theorem lookupCell_insertCell (a b : Nat) (v : Byte) (m : Memory) :
    lookupCell b (insertCell a v m) = if a = b then v else lookupCell b m := by
  induction m with
  | nil => simp [insertCell, lookupCell]
  | cons c m ih =>
    by_cases h : a < c.1
    · simp [insertCell, lookupCell, h]
    · by_cases e : c.1 = a
      · by_cases hb : a = b <;> simp [insertCell, lookupCell, e, hb]
      · simp only [insertCell, lookupCell, h, e, if_false, ih]
        by_cases hb : c.1 = b
        · have : a ≠ b := by omega
          simp [hb, this]
        · simp [hb]

theorem lookupCell_eraseCell (a b : Nat) (m : Memory) :
    lookupCell b (eraseCell a m) = if a = b then unlistedByte else lookupCell b m := by
  induction m with
  | nil => simp [eraseCell, lookupCell]
  | cons c m ih =>
    by_cases e : c.1 = a
    · have he : eraseCell a (c :: m) = eraseCell a m := by simp [eraseCell, e]
      rw [he, ih]
      by_cases h : a = b
      · simp [h]
      · have : ¬c.1 = b := by omega
        simp [lookupCell, h, this]
    · have he : eraseCell a (c :: m) = c :: eraseCell a m := by simp [eraseCell, e]
      rw [he]
      simp only [lookupCell, ih]
      by_cases hb : c.1 = b
      · have : a ≠ b := by omega
        simp [hb, this]
      · simp [hb]

/-- A read after a write gives the byte written, and a write leaves every other place alone (R52, R53). -/
theorem memRead_memWrite (m : Memory) (a v b : Byte) :
    memRead (memWrite m a v) b = if a = b then v else memRead m b := by
  have hab : a.toNat = b.toNat ↔ a = b := BitVec.toNat_inj
  unfold memRead memWrite
  by_cases h : v = unlistedByte
  · simp [h, lookupCell_eraseCell, hab]
  · simp [h, lookupCell_insertCell, hab]

@[simp] theorem memRead_memWrite_self (m : Memory) (a v : Byte) : memRead (memWrite m a v) a = v := by
  simp [memRead_memWrite]

theorem memRead_memWrite_ne (m : Memory) {a b : Byte} (v : Byte) (h : a ≠ b) :
    memRead (memWrite m a v) b = memRead m b := by simp [memRead_memWrite, h]

theorem mem_insertCell {a : Nat} {v : Byte} {m : Memory} {d : Host.Cell} (h : d ∈ insertCell a v m) :
    d = (a, v) ∨ d ∈ m := by
  induction m with
  | nil => simpa [insertCell] using h
  | cons c m ih =>
    simp only [insertCell] at h
    split at h
    · simpa using h
    · split at h
      · rcases List.mem_cons.mp h with h | h
        · exact .inl h
        · exact .inr (List.mem_cons_of_mem _ h)
      · rcases List.mem_cons.mp h with h | h
        · exact .inr (by simp [h])
        · rcases ih h with h | h
          · exact .inl h
          · exact .inr (List.mem_cons_of_mem _ h)

theorem insertCell_pairwise (a : Nat) (v : Byte) {m : Memory} (h : m.Pairwise fun c d => c.1 < d.1) :
    (insertCell a v m).Pairwise fun c d => c.1 < d.1 := by
  induction m with
  | nil => simp [insertCell]
  | cons c m ih =>
    obtain ⟨hc, hm⟩ := List.pairwise_cons.mp h
    simp only [insertCell]
    split
    · rename_i lt
      refine List.pairwise_cons.mpr ⟨?_, h⟩
      intro d hd
      rcases List.mem_cons.mp hd with rfl | hd
      · exact lt
      · exact lt_trans lt (hc d hd)
    · split
      · rename_i e
        refine List.pairwise_cons.mpr ⟨?_, hm⟩
        intro d hd
        simpa [e] using hc d hd
      · refine List.pairwise_cons.mpr ⟨?_, ih hm⟩
        intro d hd
        rcases mem_insertCell hd with rfl | hd
        · show c.1 < a
          omega
        · exact hc d hd

/-- A write keeps the canonical form. -/
theorem memWrite_wf {m : Memory} (a v : Byte) (h : m.wf) : (memWrite m a v).wf := by
  unfold memWrite
  split
  · refine ⟨h.1.filter _, ?_⟩
    intro c hc
    exact h.2 c (List.mem_filter.mp hc).1
  · rename_i hv
    refine ⟨insertCell_pairwise _ _ h.1, ?_⟩
    intro c hc
    rcases mem_insertCell hc with rfl | hc
    · exact ⟨a.isLt, hv⟩
    · exact h.2 c hc

/-- Placing bytes keeps the canonical form. -/
theorem placeBytes_wf {m : Memory} (a : Byte) (vs : List Byte) (h : m.wf) : (placeBytes m a vs).wf := by
  induction vs generalizing m a with
  | nil => exact h
  | cons v vs ih => exact ih (a + 1) (memWrite_wf a v h)

theorem empty_wf : Memory.wf [] := ⟨List.Pairwise.nil, by simp⟩

/-- Every loaded program is a memory in canonical form. -/
theorem loadProgram_wf {bytes : List Byte} {m : Memory} (h : loadProgram bytes = some m) : m.wf := by
  unfold loadProgram at h
  split at h
  · exact Option.some.inj h ▸ placeBytes_wf loadBase bytes empty_wf
  · cases h

/-- Memory right after reset has the canonical form. -/
theorem reset_mem_wf : State.reset.mem.wf := empty_wf

end Sys2Proof.Machine
end

