-- ==== Sys2Proof/Laws/State.lean ====
section
/-! SUPPORT. One lemma per field per update of State, so that no later proof unfolds a record update. -/

namespace Sys2Proof.Machine

variable (s : State) (i j : RegIndex) (v w a : Byte) (f : Flag) (r : RunState) (n : Nat)

@[simp] theorem writeReg_pc : (writeReg s i v).pc = s.pc := rfl
@[simp] theorem writeReg_fl : (writeReg s i v).fl = s.fl := rfl
@[simp] theorem writeReg_run : (writeReg s i v).run = s.run := rfl
@[simp] theorem writeReg_out : (writeReg s i v).out = s.out := rfl
@[simp] theorem writeReg_mem : (writeReg s i v).mem = s.mem := rfl

@[simp] theorem setPc_x : (setPc s v).x = s.x := rfl
@[simp] theorem setPc_pc : (setPc s v).pc = v := rfl
@[simp] theorem setPc_fl : (setPc s v).fl = s.fl := rfl
@[simp] theorem setPc_run : (setPc s v).run = s.run := rfl
@[simp] theorem setPc_out : (setPc s v).out = s.out := rfl
@[simp] theorem setPc_mem : (setPc s v).mem = s.mem := rfl

@[simp] theorem setFlag_x : (setFlag s f).x = s.x := rfl
@[simp] theorem setFlag_pc : (setFlag s f).pc = s.pc := rfl
@[simp] theorem setFlag_fl : (setFlag s f).fl = f := rfl
@[simp] theorem setFlag_run : (setFlag s f).run = s.run := rfl
@[simp] theorem setFlag_out : (setFlag s f).out = s.out := rfl
@[simp] theorem setFlag_mem : (setFlag s f).mem = s.mem := rfl

@[simp] theorem setRun_x : (setRun s r).x = s.x := rfl
@[simp] theorem setRun_pc : (setRun s r).pc = s.pc := rfl
@[simp] theorem setRun_fl : (setRun s r).fl = s.fl := rfl
@[simp] theorem setRun_run : (setRun s r).run = r := rfl
@[simp] theorem setRun_out : (setRun s r).out = s.out := rfl
@[simp] theorem setRun_mem : (setRun s r).mem = s.mem := rfl

@[simp] theorem emit_x : (emit s v).x = s.x := rfl
@[simp] theorem emit_pc : (emit s v).pc = s.pc := rfl
@[simp] theorem emit_fl : (emit s v).fl = s.fl := rfl
@[simp] theorem emit_run : (emit s v).run = s.run := rfl
@[simp] theorem emit_out : (emit s v).out = s.out ++ [v] := rfl
@[simp] theorem emit_mem : (emit s v).mem = s.mem := rfl

@[simp] theorem storeByte_x : (storeByte s a v).x = s.x := rfl
@[simp] theorem storeByte_pc : (storeByte s a v).pc = s.pc := rfl
@[simp] theorem storeByte_fl : (storeByte s a v).fl = s.fl := rfl
@[simp] theorem storeByte_run : (storeByte s a v).run = s.run := rfl
@[simp] theorem storeByte_out : (storeByte s a v).out = s.out := rfl
@[simp] theorem storeByte_mem : (storeByte s a v).mem = memWrite s.mem a v := rfl

@[simp] theorem advancePc_x : (advancePc s n).x = s.x := rfl
@[simp] theorem advancePc_pc : (advancePc s n).pc = s.pc + BitVec.ofNat 8 (n + 1) := rfl
@[simp] theorem advancePc_fl : (advancePc s n).fl = s.fl := rfl
@[simp] theorem advancePc_run : (advancePc s n).run = s.run := rfl
@[simp] theorem advancePc_out : (advancePc s n).out = s.out := rfl
@[simp] theorem advancePc_mem : (advancePc s n).mem = s.mem := rfl

/-- `raise` changes `run` and nothing else (R217). -/
theorem raiseFault_eq (c : Cause) (op : Byte) : raiseFault s c op = { s with run := .fault c op } := rfl

/-- No register is hardwired: a write is read back, and no other register changes (R20). -/
theorem readReg_writeReg : readReg (writeReg s i v) j = if i = j then v else readReg s j := by
  simp [readReg, writeReg, Vector.getElem_set, Fin.ext_iff]

@[simp] theorem readReg_writeReg_self : readReg (writeReg s i v) i = v := by simp [readReg_writeReg]

theorem readReg_writeReg_ne {s : State} {i j : RegIndex} {v : Byte} (h : i ≠ j) :
    readReg (writeReg s i v) j = readReg s j := by simp [readReg_writeReg, h]

theorem readReg_of_x {s t : State} (h : t.x = s.x) (i : RegIndex) : readReg t i = readReg s i := by
  simp [readReg, h]

@[simp] theorem readReg_setPc : readReg (setPc s v) i = readReg s i := rfl
@[simp] theorem readReg_setFlag : readReg (setFlag s f) i = readReg s i := rfl
@[simp] theorem readReg_setRun : readReg (setRun s r) i = readReg s i := rfl
@[simp] theorem readReg_emit : readReg (emit s v) i = readReg s i := rfl
@[simp] theorem readReg_storeByte : readReg (storeByte s a v) i = readReg s i := rfl
@[simp] theorem readReg_advancePc : readReg (advancePc s n) i = readReg s i := rfl

@[simp] theorem loadByte_writeReg : loadByte (writeReg s i v) a = loadByte s a := rfl
@[simp] theorem loadByte_setPc : loadByte (setPc s v) a = loadByte s a := rfl
@[simp] theorem loadByte_setFlag : loadByte (setFlag s f) a = loadByte s a := rfl
@[simp] theorem loadByte_setRun : loadByte (setRun s r) a = loadByte s a := rfl
@[simp] theorem loadByte_emit : loadByte (emit s v) a = loadByte s a := rfl
@[simp] theorem loadByte_advancePc : loadByte (advancePc s n) a = loadByte s a := rfl

/-- SP is register 7 and nothing more (R21). -/
theorem sp_eq : sp s = readReg s 7 := rfl

@[simp] theorem sp_setSp : sp (setSp s v) = v := by simp [sp, setSp]

theorem setSp_eq : setSp s v = writeReg s 7 v := rfl

theorem decrementSp_eq : decrementSp s = writeReg s 7 (readReg s 7 - 1) := rfl

theorem incrementSp_eq : incrementSp s = writeReg s 7 (readReg s 7 + 1) := rfl

theorem pushAddr_eq : pushAddr s = readReg s 7 - 1 := rfl

theorem readOperand_eq (o : Byte) : readOperand s o = readReg s (ridx o) := rfl

theorem writeOperand_eq (o : Byte) : writeOperand s o v = writeReg s (ridx o) v := rfl

/-- States agree when their fields do. -/
theorem State.ext_of_regs {s t : State} (hx : ∀ i, readReg s i = readReg t i) (hpc : s.pc = t.pc) (hfl : s.fl = t.fl)
    (hrun : s.run = t.run) (hout : s.out = t.out) (hmem : s.mem = t.mem) : s = t := by
  cases s
  cases t
  simp only [State.mk.injEq]
  refine ⟨?_, hpc, hfl, hrun, hout, hmem⟩
  exact Vector.ext fun k hk => hx ⟨k, hk⟩

end Sys2Proof.Machine
end

