-- ==== Sys2Proof/Laws/Exec.lean ====
section
/-! SUPPORT. What exec and step can do, said once: exec of each instruction as one equation over the named
operations, and the inversion of step. -/

namespace Sys2Proof.Machine

variable (opa opb : Byte) (s : State)

theorem exec_add : exec (.add opa opb) s =
    .next (advancePc (writeReg s (ridx opa) (readReg s (ridx opa) + readReg s (ridx opb))) 2) := rfl

theorem exec_sub : exec (.sub opa opb) s =
    .next (advancePc (writeReg s (ridx opa) (readReg s (ridx opa) - readReg s (ridx opb))) 2) := rfl

theorem exec_mul : exec (.mul opa opb) s =
    .next (advancePc (writeReg s (ridx opa) (readReg s (ridx opa) * readReg s (ridx opb))) 2) := rfl

theorem exec_cmp : exec (.cmp opa opb) s =
    .next (advancePc (setFlag s (compareFlag (readReg s (ridx opa)) (readReg s (ridx opb)))) 2) := rfl

theorem exec_hlt : exec .hlt s = .next (advancePc (setRun s .halted) 0) := rfl

theorem exec_ldi : exec (.ldi opa opb) s = .next (advancePc (writeReg s (ridx opa) opb) 2) := rfl

theorem exec_prn : exec (.prn opa) s = .next (advancePc (emit s (readReg s (ridx opa))) 1) := rfl

theorem exec_push : exec (.push opa) s =
    .next (advancePc (storeByte (decrementSp s) (sp (decrementSp s)) (readReg (decrementSp s) (ridx opa))) 1) := rfl

theorem exec_pop : exec (.pop opa) s =
    .next (advancePc (incrementSp (writeReg s (ridx opa) (loadByte s (sp s)))) 1) := rfl

theorem exec_call : exec (.call opa) s =
    .next (setPc (storeByte (decrementSp s) (sp (decrementSp s)) (s.pc + 2)) (readReg (decrementSp s) (ridx opa))) := rfl

theorem exec_ret : exec .ret s = .next (incrementSp (setPc s (loadByte s (sp s)))) := rfl

theorem exec_jmp : exec (.jmp opa) s = .next (setPc s (readReg s (ridx opa))) := rfl

theorem exec_jeq : exec (.jeq opa) s =
    .next (if s.fl = .equal then setPc s (readReg s (ridx opa)) else advancePc s 1) := by
  cases h : s.fl <;> simp [exec, execJeq, jeqHandler, branchHandler, jmpHandler, finishCycle, updatePc, equalSet,
    readOperand, h]

theorem exec_jne : exec (.jne opa) s =
    .next (if s.fl = .equal then advancePc s 1 else setPc s (readReg s (ridx opa))) := by
  cases h : s.fl <;> simp [exec, execJne, jneHandler, branchHandler, jmpHandler, finishCycle, updatePc, equalSet,
    readOperand, h]

/-- Every instruction is its handler followed by step 5 of the cycle (R110, R116). -/
theorem exec_eq_handler (i : Instr) : exec i s = .next (updatePc (operandCount i) (handlerOf i s)) := by
  cases i <;> simp only [operandCount, mnemonicOf, operandCountField_opcodeOf] <;> rfl

/-- A byte that the opcode's count declares is the byte at that address (R113). -/
theorem fetchOperand_of_le {k : Nat} (h : k ≤ operandCountField (fetchOpcode s)) :
    fetchOperand s k = loadByte s (s.pc + BitVec.ofNat 8 k) := by simp [fetchOperand, h]

/-- Reading the bytes that are not declared as well makes no difference (R113, D20). -/
theorem fetchDecode_eq :
    fetchDecode s = decode (loadByte s s.pc) (loadByte s (s.pc + 1)) (loadByte s (s.pc + 2)) := by
  unfold fetchDecode
  show decode (loadByte s s.pc) _ _ = _
  rcases decodeOpcode_cases (loadByte s s.pc) with ⟨m, hm, _⟩ | ⟨_, h⟩
  · have hf : fetchOpcode s = opcodeOf m := hm.symm
    rw [← hm, decode_opcodeOf, decode_opcodeOf]
    cases m <;> simp [instrOf, fetchOperand, hf]
  · simp [decode, h]

theorem step_running_instr {s : State} {i : Instr} (hr : s.run = .running) (h : fetchDecode s = .instr i) :
    step s = exec i s := by simp [step, hr, h]

theorem step_running_illegal {s : State} {c : Cause} (hr : s.run = .running) (h : fetchDecode s = .illegal c) :
    step s = .next (raiseFault s c (fetchOpcode s)) := by simp [step, hr, h]

theorem step_halted {s : State} (hr : s.run = .halted) : step s = .fault .halted := by simp [step, hr]

theorem step_stopped {s : State} {c : Cause} {op : Byte} (hr : s.run = .fault c op) :
    step s = .fault (.stopped c op) := by simp [step, hr]

/-- Everything a step that answers a next state can be: one instruction's exec, or fault entry at an undefined
opcode. -/
theorem step_cases {s t : State} (h : step s = .next t) :
    s.run = .running ∧
      ((∃ i, fetchDecode s = .instr i ∧ exec i s = .next t) ∨
        (∃ c, fetchDecode s = .illegal c ∧ t = raiseFault s c (fetchOpcode s))) := by
  cases hr : s.run with
  | running =>
    refine ⟨rfl, ?_⟩
    cases hd : fetchDecode s with
    | instr i => exact .inl ⟨i, rfl, (step_running_instr hr hd).symm.trans h⟩
    | illegal c =>
      rw [step_running_illegal hr hd] at h
      exact .inr ⟨c, rfl, (Host.Outcome.next.inj h).symm⟩
  | halted => rw [step_halted hr] at h; cases h
  | fault c op => rw [step_stopped hr] at h; cases h

end Sys2Proof.Machine
end

