-- ==== Sys2Proof/Laws/PerInstr.lean ====
section
/-! SUPPORT. Statements about every instruction as syntax, one lemma per constructor. -/

namespace Sys2Proof.Laws

/-- An instruction's bytes are one opcode byte and as many operand bytes as its field NN says (R80, R93). -/
def EncodeLength.Statement (i : Instr) : Prop :=
  (encode i).length = 1 + operandCountField (opcodeOf (mnemonicOf i))

theorem EncodeLength.add (opa opb : Byte) : EncodeLength.Statement (.add opa opb) := by
  simp [EncodeLength.Statement, encode, operandBytes, mnemonicOf]
theorem EncodeLength.sub (opa opb : Byte) : EncodeLength.Statement (.sub opa opb) := by
  simp [EncodeLength.Statement, encode, operandBytes, mnemonicOf]
theorem EncodeLength.mul (opa opb : Byte) : EncodeLength.Statement (.mul opa opb) := by
  simp [EncodeLength.Statement, encode, operandBytes, mnemonicOf]
theorem EncodeLength.cmp (opa opb : Byte) : EncodeLength.Statement (.cmp opa opb) := by
  simp [EncodeLength.Statement, encode, operandBytes, mnemonicOf]
theorem EncodeLength.hlt : EncodeLength.Statement .hlt := by
  simp [EncodeLength.Statement, encode, operandBytes, mnemonicOf]
theorem EncodeLength.ldi (opa opb : Byte) : EncodeLength.Statement (.ldi opa opb) := by
  simp [EncodeLength.Statement, encode, operandBytes, mnemonicOf]
theorem EncodeLength.prn (opa : Byte) : EncodeLength.Statement (.prn opa) := by
  simp [EncodeLength.Statement, encode, operandBytes, mnemonicOf]
theorem EncodeLength.push (opa : Byte) : EncodeLength.Statement (.push opa) := by
  simp [EncodeLength.Statement, encode, operandBytes, mnemonicOf]
theorem EncodeLength.pop (opa : Byte) : EncodeLength.Statement (.pop opa) := by
  simp [EncodeLength.Statement, encode, operandBytes, mnemonicOf]
theorem EncodeLength.call (opa : Byte) : EncodeLength.Statement (.call opa) := by
  simp [EncodeLength.Statement, encode, operandBytes, mnemonicOf]
theorem EncodeLength.ret : EncodeLength.Statement .ret := by
  simp [EncodeLength.Statement, encode, operandBytes, mnemonicOf]
theorem EncodeLength.jmp (opa : Byte) : EncodeLength.Statement (.jmp opa) := by
  simp [EncodeLength.Statement, encode, operandBytes, mnemonicOf]
theorem EncodeLength.jeq (opa : Byte) : EncodeLength.Statement (.jeq opa) := by
  simp [EncodeLength.Statement, encode, operandBytes, mnemonicOf]
theorem EncodeLength.jne (opa : Byte) : EncodeLength.Statement (.jne opa) := by
  simp [EncodeLength.Statement, encode, operandBytes, mnemonicOf]

/-- Clearing the ignored bits gives an instruction as an assembler writes it (R92, R96). -/
def CanonicalForm.Statement (i : Instr) : Prop := i.canonical.wellFormed = true

theorem CanonicalForm.add (opa opb : Byte) : CanonicalForm.Statement (.add opa opb) := by
  simp [CanonicalForm.Statement, Instr.canonical, Instr.wellFormed, canonicalOperand_canonicalByte]
theorem CanonicalForm.sub (opa opb : Byte) : CanonicalForm.Statement (.sub opa opb) := by
  simp [CanonicalForm.Statement, Instr.canonical, Instr.wellFormed, canonicalOperand_canonicalByte]
theorem CanonicalForm.mul (opa opb : Byte) : CanonicalForm.Statement (.mul opa opb) := by
  simp [CanonicalForm.Statement, Instr.canonical, Instr.wellFormed, canonicalOperand_canonicalByte]
theorem CanonicalForm.cmp (opa opb : Byte) : CanonicalForm.Statement (.cmp opa opb) := by
  simp [CanonicalForm.Statement, Instr.canonical, Instr.wellFormed, canonicalOperand_canonicalByte]
theorem CanonicalForm.hlt : CanonicalForm.Statement .hlt := rfl
theorem CanonicalForm.ldi (opa opb : Byte) : CanonicalForm.Statement (.ldi opa opb) := canonicalOperand_canonicalByte opa
theorem CanonicalForm.prn (opa : Byte) : CanonicalForm.Statement (.prn opa) := canonicalOperand_canonicalByte opa
theorem CanonicalForm.push (opa : Byte) : CanonicalForm.Statement (.push opa) := canonicalOperand_canonicalByte opa
theorem CanonicalForm.pop (opa : Byte) : CanonicalForm.Statement (.pop opa) := canonicalOperand_canonicalByte opa
theorem CanonicalForm.call (opa : Byte) : CanonicalForm.Statement (.call opa) := canonicalOperand_canonicalByte opa
theorem CanonicalForm.ret : CanonicalForm.Statement .ret := rfl
theorem CanonicalForm.jmp (opa : Byte) : CanonicalForm.Statement (.jmp opa) := canonicalOperand_canonicalByte opa
theorem CanonicalForm.jeq (opa : Byte) : CanonicalForm.Statement (.jeq opa) := canonicalOperand_canonicalByte opa
theorem CanonicalForm.jne (opa : Byte) : CanonicalForm.Statement (.jne opa) := canonicalOperand_canonicalByte opa

end Sys2Proof.Laws
end

