-- ==== Sys2Proof/Tests/Slice0.lean ====
section
/-! SUPPORT. The model's own tests. Expected results are the vectors of spec/95_test_vectors.md (named in each comment),
the encoding lines of the instruction rules and the source's own examples; none was taken from the model. After them,
one witness for each statement of Certificates/Slice0/Obligations.lean that has hypotheses. -/

namespace Sys2Proof.Tests

open Sys2Proof Sys2Proof.Machine

/-- A state after reset but for its registers, pc and the bytes at pc; memory is 0 elsewhere. -/
def start (x : Vector Byte 8) (pc : Byte) (bytes : List Byte) : State :=
  { State.reset with x := x, pc := pc, mem := placeBytes [] pc bytes }

/-- The registers of State.reset. -/
def regs0 : Vector Byte 8 := #v[0, 0, 0, 0, 0, 0, 0, 0xF4]

/-- What is read off the next state, where there is one. -/
def after {α : Type} (s : State) (f : State → α) : Option α :=
  match step s with
  | .next t => some (f t)
  | .fault _ => none
  | .refused _ => none

/-! ### Decoding: words written out from the spec's encodings (R86, E1 to E25) -/

theorem test_decode_add : decodeBytes [0b10100000, 0x00, 0x01] = .instr (.add 0 1) [] := by decide
theorem test_decode_sub : decodeBytes [0b10100001, 0x02, 0x03] = .instr (.sub 2 3) [] := by decide
theorem test_decode_mul : decodeBytes [0b10100010, 0x05, 0x06] = .instr (.mul 5 6) [] := by decide
theorem test_decode_cmp : decodeBytes [0b10100111, 0x01, 0x07] = .instr (.cmp 1 7) [] := by decide
theorem test_decode_hlt : decodeBytes [0b00000001, 0xAA] = .instr .hlt [0xAA] := by decide
theorem test_decode_ldi : decodeBytes [0b10000010, 0x03, 0xC8] = .instr (.ldi 3 200) [] := by decide
theorem test_decode_prn : decodeBytes [0b01000111, 0x04] = .instr (.prn 4) [] := by decide
theorem test_decode_push : decodeBytes [0b01000101, 0x01] = .instr (.push 1) [] := by decide
theorem test_decode_pop : decodeBytes [0b01000110, 0x02] = .instr (.pop 2) [] := by decide
theorem test_decode_call : decodeBytes [0b01010000, 0x03] = .instr (.call 3) [] := by decide
theorem test_decode_ret : decodeBytes [0b00010001] = .instr .ret [] := by decide
theorem test_decode_jmp : decodeBytes [0b01010100, 0x03] = .instr (.jmp 3) [] := by decide
theorem test_decode_jeq : decodeBytes [0b01010101, 0x02] = .instr (.jeq 2) [] := by decide
theorem test_decode_jne : decodeBytes [0b01010110, 0x02] = .instr (.jne 2) [] := by decide

/-- E15 to E19c, E25: DecodeFailure. -/
theorem test_decode_failures :
    ∀ ir ∈ ([0xFF, 0xC0, 0xE0, 0x00, 0x02, 0x10, 0x83, 0x41, 0x51, 0x91] : List Byte),
      decodeOpcode ir = .illegal .decodeFailure := by decide

/-- E20 to E24: UnsupportedAluOperation. -/
theorem test_unsupported_alu :
    ∀ ir ∈ ([0xA3, 0xA8, 0xB0, 0x20, 0x60, 0x65] : List Byte),
      decodeOpcode ir = .illegal .unsupportedAluOperation := by decide

set_option maxRecDepth 8000 in
/-- R90: of the 256 byte values, 14 are defined, 150 decode failures and 92 unsupported ALU operations. -/
theorem test_partition_counts :
    let bytes := (List.range 256).map (BitVec.ofNat 8)
    (bytes.filter fun b => decodeOpcode b == .illegal .decodeFailure).length = 150 ∧
      (bytes.filter fun b => decodeOpcode b == .illegal .unsupportedAluOperation).length = 92 := by decide

/-- E14, R95: a descriptor. -/
theorem test_descriptor_jne : decodeOpcode 0x56 = .ok ⟨.jne, 1, false, true⟩ := by decide

theorem test_truncated : decodeBytes [0xA0, 0x00] = .truncated := by decide

/-- The opcode table's numbering: bit 0 is the least significant bit of the opcode byte; missing bits are 0. -/
theorem test_table_word :
    decodeTableWord 24 (0xA0 + 1 * 2 ^ 8 + 2 * 2 ^ 16) = some (.add 1 2) ∧ decodeTableWord 8 0xA0 = some (.add 0 0) ∧
      decodeTableWord 8 0x11 = some .ret ∧ decodeTableWord 8 0xFF = none := by decide

/-- K3 at pc = 0: a placed word is fetched and run by the first step after reset. -/
theorem test_placed_word :
    after (State.reset.withFetchWord 16 0x0745) (fun t => (sp t, loadByte t 0xF3, t.pc)) = some (0xF3, 0xF3, 0x02) := by
  decide

/-! ### WellFormed: one ill-formed term for each check (R96) -/

theorem test_illformed_add : Instr.wellFormed (.add 8 0) = false ∧ Instr.wellFormed (.add 0 8) = false := by decide
theorem test_illformed_sub : Instr.wellFormed (.sub 8 0) = false ∧ Instr.wellFormed (.sub 0 8) = false := by decide
theorem test_illformed_mul : Instr.wellFormed (.mul 8 0) = false ∧ Instr.wellFormed (.mul 0 8) = false := by decide
theorem test_illformed_cmp : Instr.wellFormed (.cmp 8 0) = false ∧ Instr.wellFormed (.cmp 0 8) = false := by decide
theorem test_illformed_ldi : Instr.wellFormed (.ldi 8 0) = false ∧ Instr.wellFormed (.ldi 7 255) = true := by decide
theorem test_illformed_one_operand :
    Instr.wellFormed (.prn 8) = false ∧ Instr.wellFormed (.push 8) = false ∧ Instr.wellFormed (.pop 255) = false ∧
      Instr.wellFormed (.call 8) = false ∧ Instr.wellFormed (.jmp 8) = false ∧ Instr.wellFormed (.jeq 8) = false ∧
      Instr.wellFormed (.jne 8) = false := by decide

/-! ### One step of each instruction -/

/-- A1, the source's example: 250 + 10 = 4. -/
theorem test_add_wraps :
    after (start #v[0xFA, 0x0A, 0, 0, 0, 0, 0, 0xF4] 0 [0xA0, 0x00, 0x01]) (fun t => (readReg t 0, readReg t 1, t.pc)) =
      some (0x04, 0x0A, 0x03) := by decide

/-- A4: operand bytes 08 and 09 name registers 0 and 1. -/
theorem test_add_operands_modulo_8 :
    after (start #v[1, 2, 0, 0, 0, 0, 0, 0xF4] 0 [0xA0, 0x08, 0x09]) (fun t => (readReg t 0, t.fl)) =
      some (0x03, .none) := by decide

/-- B1: 5 - 10 = 251. -/
theorem test_sub_wraps :
    after (start #v[0, 0, 5, 10, 0, 0, 0, 0xF4] 0 [0xA1, 0x02, 0x03]) (fun t => (readReg t 2, readReg t 3, t.pc)) =
      some (0xFB, 0x0A, 0x03) := by decide

/-- B3: a = b. -/
theorem test_sub_same_register :
    after (start #v[0, 0, 0, 0, 0x37, 0, 0, 0xF4] 0 [0xA1, 0x04, 0x04]) (fun t => readReg t 4) = some 0x00 := by decide

/-- M3: 255 * 255 keeps its low byte. -/
theorem test_mul_low_byte :
    after (start #v[0xFF, 0xFF, 0, 0, 0, 0, 0, 0xF4] 0 [0xA2, 0x00, 0x01]) (fun t => (readReg t 0, t.pc)) =
      some (0x01, 0x03) := by decide

/-- M4: 200 * 3. -/
theorem test_mul_wraps :
    after (start #v[0xC8, 0x03, 0, 0, 0, 0, 0, 0xF4] 0 [0xA2, 0x00, 0x01]) (fun t => readReg t 0) = some 0x58 := by decide

/-- C4: unsigned, 0x80 > 0x7F. -/
theorem test_cmp_is_unsigned :
    after (start #v[0x80, 0x7F, 0, 0, 0, 0, 0, 0xF4] 0 [0xA7, 0x00, 0x01]) (fun t => (t.fl, readReg t 0, t.pc)) =
      some (.greater, 0x80, 0x03) := by decide

/-- C7: no stale flag. -/
theorem test_cmp_clears_the_old_flag :
    after { start #v[1, 2, 0, 0, 0, 0, 0, 0xF4] 0 [0xA7, 0x00, 0x01] with fl := .greater } (fun t => t.fl) =
      some .less := by decide

/-- H1. -/
theorem test_hlt : after (start regs0 0x0B [0x01]) (fun t => (t.run, t.pc)) = some (.halted, 0x0C) := by decide

/-- H2: pc wraps. -/
theorem test_hlt_at_the_top : after (start regs0 0xFF [0x01]) (fun t => (t.run, t.pc)) = some (.halted, 0x00) := by decide

/-- H3: no step from Halted. -/
theorem test_no_step_when_halted : step { State.reset with run := .halted } = .fault .halted := rfl

/-- L2: 0A names register 2. -/
theorem test_ldi_operand_modulo_8 :
    after (start regs0 0 [0x82, 0x0A, 0x05]) (fun t => (readReg t 2, t.pc)) = some (0x05, 0x03) := by decide

/-- L3: LDI R7 moves sp. -/
theorem test_ldi_sp : after (start regs0 0 [0x82, 0x07, 0x80]) sp = some 0x80 := by decide

/-- N2: 0F names sp. -/
theorem test_prn_sp : after (start regs0 0 [0x47, 0x0F]) (fun t => (t.out, t.pc)) = some ([244], 0x02) := by decide

/-- N3: appended after the earlier output. -/
theorem test_prn_appends :
    after { start regs0 0 [0x47, 0x01] with out := [5] } (fun t => t.out) = some [5, 0] := by decide

/-- K2: sp wraps below 0. -/
theorem test_push_wraps :
    after (start #v[0, 0xAB, 0, 0, 0, 0, 0, 0x00] 0x20 [0x45, 0x01]) (fun t => (sp t, loadByte t 0xFF, t.pc)) =
      some (0xFF, 0xAB, 0x22) := by decide

/-- K3: PUSH R7 stores the decremented sp. -/
theorem test_push_sp :
    after (start regs0 0x20 [0x45, 0x07]) (fun t => (sp t, loadByte t 0xF3)) = some (0xF3, 0xF3) := by decide

/-- K5: sp wraps past 0xFF. -/
theorem test_pop_wraps :
    after (storeByte (start #v[0, 0, 0, 0, 0, 0, 0, 0xFF] 0x20 [0x46, 0x00]) 0xFF 0x09)
      (fun t => (readReg t 0, sp t, loadByte t 0xFF, t.pc)) = some (0x09, 0x00, 0x09, 0x22) := by decide

/-- K6: POP R7 loads, then increments. -/
theorem test_pop_sp :
    after (storeByte (start #v[0, 0, 0, 0, 0, 0, 0, 0xF3] 0x20 [0x46, 0x07]) 0xF3 0x20) sp = some 0x21 := by decide

/-- J2: operand and return address wrap past 0xFF. -/
theorem test_call_at_the_top :
    after (start #v[0, 0, 0x40, 0, 0, 0, 0, 0xF4] 0xFF [0x50, 0x02]) (fun t => (sp t, loadByte t 0xF3, t.pc)) =
      some (0xF3, 0x01, 0x40) := by decide

/-- J3: CALL R7 jumps to the decremented sp. -/
theorem test_call_sp :
    after (start regs0 0x10 [0x50, 0x07]) (fun t => (sp t, loadByte t 0xF3, t.pc)) = some (0xF3, 0x12, 0xF3) := by decide

/-- J4. -/
theorem test_ret :
    after (storeByte (start #v[0, 0, 0, 0, 0, 0, 0, 0xF2] 0x12 [0x11]) 0xF2 0x0A) (fun t => (t.pc, sp t)) =
      some (0x0A, 0xF3) := by decide

/-- J5: sp wraps. -/
theorem test_ret_wraps :
    after (storeByte (start #v[0, 0, 0, 0, 0, 0, 0, 0xFF] 0x20 [0x11]) 0xFF 0x33) (fun t => (t.pc, sp t)) =
      some (0x33, 0x00) := by decide

/-- J6. -/
theorem test_jmp : after (start #v[0, 0, 0, 0x0C, 0, 0, 0, 0xF4] 0x14 [0x54, 0x03]) (fun t => t.pc) = some 0x0C := by
  decide

/-- J7: taken. -/
theorem test_jeq_taken :
    after { start #v[0, 0, 0x20, 0, 0, 0, 0, 0xF4] 0x10 [0x55, 0x02] with fl := .equal } (fun t => t.pc) =
      some 0x20 := by decide

/-- J10: not taken before any CMP. -/
theorem test_jeq_after_reset :
    after (start #v[0, 0, 0x20, 0, 0, 0, 0, 0xF4] 0x10 [0x55, 0x02]) (fun t => t.pc) = some 0x12 := by decide

/-- J12: taken on Greater. -/
theorem test_jne_taken :
    after { start #v[0, 0, 0, 0x0C, 0, 0, 0, 0xF4] 0x14 [0x56, 0x03] with fl := .greater } (fun t => t.pc) =
      some 0x0C := by decide

/-- J13: not taken on Equal. -/
theorem test_jne_not_taken :
    after { start #v[0, 0, 0, 0x0C, 0, 0, 0, 0xF4] 0x14 [0x56, 0x03] with fl := .equal } (fun t => t.pc) =
      some 0x16 := by decide

/-- F1: fault entry changes `run` only. -/
theorem test_fault_entry :
    after (start #v[0x2A, 0, 0, 0, 0, 0, 0, 0xF4] 5 [0xFF]) (fun t => (t.run, t.pc, readReg t 0)) =
      some (.fault .decodeFailure 0xFF, 0x05, 0x2A) := by decide

/-- F2. -/
theorem test_fault_entry_alu :
    after (start regs0 5 [0xA3, 0, 0]) (fun t => (t.run, t.pc)) =
      some (.fault .unsupportedAluOperation 0xA3, 0x05) := by decide

/-- F4: no step from Fault. -/
theorem test_no_step_when_faulted (op : Byte) :
    step { State.reset with run := .fault .decodeFailure op } = .fault (.stopped .decodeFailure op) := rfl

/-- R38: the state after reset. -/
theorem test_reset :
    State.reset = { x := regs0, pc := 0, fl := .none, run := .running, out := [], mem := [] } := by decide

/-- R31, R199: the outputs of an end state. -/
theorem test_status_outputs :
    faultOut { State.reset with run := .fault .unsupportedAluOperation 0xA3 } = some (2, 0xA3) ∧
      haltedOut { State.reset with run := .halted } = true ∧ dbgFl { State.reset with fl := .less } = 0x04 := by decide

/-- R58: the accesses of a PUSH, in order. -/
theorem test_push_accesses :
    cycleAccesses (start #v[7, 0, 0, 0, 0, 0, 0, 0xF4] 6 [0x45, 0x00]) =
      [.read 6, .read 7, .write 0xF3 0x07] := by decide

/-- R204: the loader fills memory from address 0 in file order. -/
theorem test_load_program :
    (loadProgram [0x82, 0x00, 0x08]).map (fun m => (memRead m 0, memRead m 1, memRead m 2, memRead m 3)) =
      some (0x82, 0x00, 0x08, 0x00) := by decide

/-- R98 and program P1: the first lines of its file, with a comment and a blank line added. -/
theorem test_program_file :
    parseProgram ["# P1".toList, "10000010 # LDI R0,8".toList, "00000000".toList, "".toList, "00001000".toList] =
        some [0x82, 0x00, 0x08] ∧
      parseProgram ["1000001".toList] = none := by decide

/-- R205 and R206: the host's exit statuses and the data of a trace line. -/
theorem test_host_view :
    exitStatus .halted = some 0 ∧ exitStatus (.fault .decodeFailure 0xFF) = some 1 ∧
      traceRecord (start regs0 0xFF [0x01, 0x02, 0x03]) = ⟨0xFF, [1, 2, 3], [0, 0, 0, 0, 0, 0, 0, 0xF4]⟩ := by decide

/-! ### Witnesses: the hypotheses of each statement hold together somewhere -/

theorem witness_OnlyTheEncodingDecodes : decodeBytes [0x82, 0x05, 0xFF, 0x07] = .instr (.ldi 5 255) [7] := by decide

theorem witness_DescriptorIsReadFromTheFields : decodeOpcode 0xA7 = .ok ⟨.cmp, 2, true, false⟩ := by decide

theorem witness_StepIsTheNumberedCycle_illegal :
    (start regs0 0 [0x3F]).run = .running ∧
      decodeOpcode (loadByte (start regs0 0 [0x3F]) 0) = .illegal .unsupportedAluOperation := by decide

theorem witness_StepIsTheNumberedCycle_ok :
    (start regs0 0 [0x11]).run = .running ∧
      decodeOpcode (loadByte (start regs0 0 [0x11]) 0) = .ok ⟨.ret, 0, false, true⟩ := by decide

theorem witness_StepRunsTheDecodedInstruction :
    (start regs0 0xFE [0x82, 0x02, 0x09]).run = .running ∧
      decode (loadByte (start regs0 0xFE [0x82, 0x02, 0x09]) 0xFE) (loadByte (start regs0 0xFE [0x82, 0x02, 0x09]) 0xFF)
        (loadByte (start regs0 0xFE [0x82, 0x02, 0x09]) 0x00) = .instr (.ldi 2 9) := by decide

theorem witness_PcUpdateFollowsTheHandlerResult :
    State.reset.fl ≠ .equal ∧ { State.reset with fl := .equal }.fl = Flag.equal := by decide

theorem witness_HandlersReportWhetherTheySetPc :
    (handlerOf (.jeq 0) State.reset).pcSet = false ∧ (handlerOf .ret State.reset).pcSet = true := by decide

theorem witness_CycleCompletesOrFaultsPrecisely : State.reset.run = .running ∧ NotFaulted State.reset :=
  ⟨rfl, fun _ _ h => RunState.noConfusion h⟩

theorem witness_StepExactlyWhileRunning :
    { State.reset with run := .halted }.run = RunState.halted ∧
      { State.reset with run := .fault .decodeFailure 0 }.run = RunState.fault .decodeFailure 0 := ⟨rfl, rfl⟩

theorem witness_PcWrapsPastTheTopOfMemory_operands :
    (start regs0 0xFF [0xA0, 0x01, 0x02]).run = .running ∧ (start regs0 0xFF [0xA0, 0x01, 0x02]).pc = 0xFF ∧
      decode (loadByte (start regs0 0xFF [0xA0, 0x01, 0x02]) 0xFF) (loadByte (start regs0 0xFF [0xA0, 0x01, 0x02]) 0x00)
        (loadByte (start regs0 0xFF [0xA0, 0x01, 0x02]) 0x01) = .instr (.add 1 2) := by decide

/-- The first clause at both ends of pc's range. -/
theorem witness_PcWrapsPastTheTopOfMemory_addresses :
    ∀ pc ∈ ([0x00, 0xFD, 0xFE, 0xFF] : List Byte),
      let s := start regs0 pc [0x82, 0x02, 0x09]
      s.run = .running ∧
        decode (loadByte s s.pc) (loadByte s (BitVec.ofNat 8 ((s.pc.toNat + 1) % 256)))
          (loadByte s (BitVec.ofNat 8 ((s.pc.toNat + 2) % 256))) = .instr (.ldi 2 9) := by decide

theorem witness_PcWrapsPastTheTopOfMemory_fault :
    ∃ t, step (start regs0 0xFF [0xFF]) = .next t ∧ ¬NotFaulted t :=
  ⟨_, rfl, fun h => h .decodeFailure 0xFF (by decide)⟩

theorem witness_RegisterOperandIsTakenModulo8 : NotFaulted State.reset := fun _ _ h => RunState.noConfusion h

theorem witness_PcWrapsPastTheTopOfMemory_advance :
    (handlerOf (.add 1 2) (start regs0 0xFF [])).pcSet = false ∧
      ∃ t, exec (.add 1 2) (start regs0 0xFF []) = .next t := ⟨rfl, _, rfl⟩

/-- One undefined byte for each branch of the cause: bits 7-6 are 11; else bit 5 is 1; else neither. -/
theorem witness_UndefinedOpcodeTakesFaultEntry :
    ∀ ir ∈ ([0xC0, 0xFF, 0xBF, 0x20, 0x9F, 0x00] : List Byte),
      (start regs0 0 [ir]).run = .running ∧ loadByte (start regs0 0 [ir]) 0 = ir ∧
        ir ∉ ([0x01, 0x11, 0x45, 0x46, 0x47, 0x50, 0x54, 0x55, 0x56, 0x82, 0xA0, 0xA1, 0xA2, 0xA7] : List Byte) := by
  decide

theorem witness_HaltedOnlyByHlt : after (start regs0 0xFF [0x01]) (fun t => t.run) = some .halted := by decide

theorem witness_LoadingRegister7MovesTheStack : ridx 0x0F = 7 ∧ ridx 0x08 ≠ 7 := by decide

theorem witness_MemReadReturnsTheLatestWrite :
    (∃ t, exec (.pop 0) State.reset = .next t) ∧ (∃ t, exec .ret State.reset = .next t) := ⟨⟨_, rfl⟩, ⟨_, rfl⟩⟩

theorem witness_CanonicalMemoryIsDeterminedByReads :
    (memWrite (memWrite [] 1 2) 3 4).wf ∧ (memWrite (memWrite [] 3 4) 1 2).wf ∧
      ∀ a, memRead (memWrite (memWrite [] 1 2) 3 4) a = memRead (memWrite (memWrite [] 3 4) 1 2) a := by decide

theorem witness_SubUndoesAdd : ridx 0x07 ≠ ridx 0x08 := by decide

theorem witness_FlagsWrittenByCmpReadByJumps :
    (∃ t, exec (.add 0 1) State.reset = .next t) ∧ (∀ a b, Instr.add 0 1 ≠ .cmp a b) ∧
      (∃ t, exec (.cmp 0 1) State.reset = .next t) ∧ (∀ o, Instr.add 0 1 ≠ .jeq o ∧ Instr.add 0 1 ≠ .jne o) ∧
      (∃ t, exec (.jeq 0) State.reset = .next t) ∧ (Flag.greater = .equal ↔ State.reset.fl = .equal) :=
  ⟨⟨_, rfl⟩, by simp, ⟨_, rfl⟩, by simp, ⟨_, rfl⟩, by decide⟩

/-- The clause on what FL may change, for CMP. -/
theorem witness_FlagsWrittenByCmpReadByJumps_cmp :
    (∃ t, exec (.cmp 0 7) State.reset = .next t) ∧ (∀ o, Instr.cmp 0 7 ≠ .jeq o ∧ Instr.cmp 0 7 ≠ .jne o) :=
  ⟨⟨_, rfl⟩, by simp⟩

theorem witness_OutputLogGrowsByTheOutputPort :
    after (start regs0 0 [0x47, 0x07]) (fun t => t.out) = some [244] ∧ outPort (start regs0 0 [0x47, 0x07]) = some 244 := by
  decide

theorem witness_PushThenPopRoundTrip : ridx 0x02 ≠ 7 ∧ ridx 0x09 ≠ 7 := by decide

theorem witness_CallThenReturnResumesAfterTheCall :
    ∃ t u, exec (.call 7) State.reset = .next t ∧ readReg u 7 = readReg t 7 ∧
      loadByte u (readReg t 7) = loadByte t (readReg t 7) := ⟨_, _, rfl, rfl, rfl⟩

theorem witness_BranchIfAndOnlyIfTheEqualFlag :
    (readReg (start #v[0x01, 0, 0, 0, 0, 0, 0, 0xF4] 0xFF []) (ridx 0)).toNat = ((0xFF : Byte).toNat + 2) % 256 := by
  decide

theorem witness_OnlyPushAndCallWriteMemory :
    after (start #v[7, 0, 0, 0, 0, 0, 0, 0x00] 0 [0x45, 0x00]) (fun t => loadByte t 0xFF) = some 7 ∧
      loadByte (start #v[7, 0, 0, 0, 0, 0, 0, 0x00] 0 [0x45, 0x00]) 0xFF ≠ 7 := by decide

theorem witness_MemoryFollowsTheMemoryPort :
    after (start #v[7, 0, 0, 0, 0, 0, 0, 0x00] 0 [0x45, 0x00]) (fun t => t.mem) = some [(0, 0x45), (255, 7)] := by decide

/-- As in program P5: the PUSH at 06 stores HLT's opcode on 08. -/
theorem witness_StackWriteIsSeenByTheNextFetch :
    let s := start #v[0x01, 0, 0, 0, 0, 0, 0, 0x09] 6 [0x45, 0x00, 0xFF]
    s.run = .running ∧ loadByte s s.pc = 0x45 ∧ loadByte s (s.pc + 1) = 0 ∧ ridx 0 ≠ 7 ∧ pushAddr s = s.pc + 2 ∧
      decode (readReg s (ridx 0)) (loadByte s (s.pc + 3)) (loadByte s (s.pc + 4)) = .instr .hlt := by decide

theorem witness_StatusOutputsTellTheEndState :
    haltedOut { State.reset with run := .halted } = true ∧
      after (start regs0 0 [0xFF]) faultOut = some (some (1, 0xFF)) ∧
      after (start regs0 0 [0xA3]) faultOut = some (some (2, 0xA3)) := by decide

theorem witness_EveryStepKeepsTheInvariant :
    Inv (start regs0 0 [0x01]) ∧ ∃ t, step (start regs0 0 [0x01]) = .next t :=
  ⟨⟨placeBytes_wf 0 [0x01] empty_wf, fun _ _ h => RunState.noConfusion h, fun h => RunState.noConfusion h⟩, _, rfl⟩

theorem witness_InvariantHoldsAfterReset : Memory.wf [(0, 0x82), (255, 0x01)] := by decide

theorem witness_FirstInstructionIsAtAddress0 :
    decode (memRead [(0, 0x54), (1, 0x03)] 0) (memRead [(0, 0x54), (1, 0x03)] 1) (memRead [(0, 0x54), (1, 0x03)] 2) =
        .instr (.jmp 3) ∧
      decodeOpcode (memRead [] 0) = .illegal .decodeFailure := by decide

theorem witness_LoaderPlacesBytesFromAddress0 : (loadProgram [0x01, 0x00, 0x02]) = some [(0, 0x01), (2, 0x02)] := by decide

set_option maxRecDepth 4000 in
/-- Both sides of the loader's bound. -/
theorem witness_LoaderPlacesBytesFromAddress0_bound :
    (loadProgram (List.replicate 256 0x01)).isSome = true ∧ (loadProgram (List.replicate 257 0x01)).isSome = false := by
  decide

/-- A literal with blanks and a comment, one with neither, a blank line, an empty line, a comment alone. -/
theorem witness_ProgramFileIsReadByteByByte :
    ∀ l ∈ ([⟨[' '], some 0x82, ['\t', ' '], some ['#']⟩, ⟨[], some 0x01, [], none⟩, ⟨[' '], none, [], none⟩,
      ⟨[], none, [], none⟩, ⟨[], none, [], some []⟩] : List WrittenLine), blanksOnly l := by decide

/-- R98: the text of a written line. -/
theorem test_line_text :
    lineText ⟨[' '], some 0x82, ['\t'], some ['x']⟩ = " 10000010\t#x".toList ∧
      parseProgram [" 10000010\t#x".toList, " \t".toList, "00000001".toList] = some [0x82, 0x01] := by decide

theorem witness_PlacedWordIsTheNextInstruction : decodeTableWord 16 0x0345 = some (.push 3) := by decide

end Sys2Proof.Tests
end

section
/-! SUPPORT. What an instruction's handler does to each field of the state, said once, and carried through step 5 of the
cycle: the frame of `exec`. -/

namespace Sys2Proof.Machine

/-! ### Step 5 changes pc only (R116) -/

variable (n : Nat) (r : HandlerResult)

@[simp] theorem updatePc_fl : (updatePc n r).fl = r.state.fl := by unfold updatePc; split <;> rfl

@[simp] theorem updatePc_run : (updatePc n r).run = r.state.run := by unfold updatePc; split <;> rfl

@[simp] theorem updatePc_out : (updatePc n r).out = r.state.out := by unfold updatePc; split <;> rfl

theorem updatePc_of_pcSet_false {r : HandlerResult} (h : r.pcSet = false) : updatePc n r = advancePc r.state n := by
  simp [updatePc, h]

/-- A completed instruction left what step 5 makes of its handler's result (R110). -/
theorem eq_updatePc_of_exec {i : Instr} {s t : State} (h : exec i s = .next t) :
    t = updatePc (operandCount i) (handlerOf i s) :=
  (Host.Outcome.next.inj ((exec_eq_handler s i).symm.trans h)).symm

/-! ### Conditional jumps, taken or not -/

variable (taken : Bool) (opa : Byte) (s : State) (f : Flag)

@[simp] theorem branchHandler_fl : (branchHandler taken opa s).state.fl = s.fl := by cases taken <;> rfl

@[simp] theorem branchHandler_run : (branchHandler taken opa s).state.run = s.run := by cases taken <;> rfl

@[simp] theorem branchHandler_out : (branchHandler taken opa s).state.out = s.out := by cases taken <;> rfl

theorem branchHandler_pc_of_pcSet_false (h : (branchHandler taken opa s).pcSet = false) :
    (branchHandler taken opa s).state.pc = s.pc := by
  cases taken with
  | true => cases h
  | false => rfl

/-! ### The run state: only HLT writes it (R32) -/

theorem handlerOf_run (i : Instr) : (handlerOf i s).state.run = if i = .hlt then .halted else s.run := by
  cases i with
  | jeq o => exact branchHandler_run _ o s
  | jne o => exact branchHandler_run _ o s
  | _ => rfl

theorem run_of_exec {i : Instr} {s t : State} (h : exec i s = .next t) :
    t.run = if i = .hlt then .halted else s.run := by
  rw [eq_updatePc_of_exec h, updatePc_run, handlerOf_run]

/-- No handler enters Fault (R118). -/
theorem notFaulted_of_exec {i : Instr} {s t : State} (h : exec i s = .next t) (hs : NotFaulted s) : NotFaulted t := by
  intro c op
  rw [run_of_exec h]
  split
  · exact RunState.noConfusion
  · exact hs c op

/-- Every instruction completes in every state, and without faulting (R118). -/
theorem exec_completes (i : Instr) : ∃ t, exec i s = .next t ∧ (NotFaulted s → NotFaulted t) :=
  ⟨_, exec_eq_handler s i, notFaulted_of_exec (exec_eq_handler s i)⟩

theorem notFaulted_of_running {s : State} (h : s.run = .running) : NotFaulted s := by
  intro c op
  rw [h]
  exact RunState.noConfusion

/-! ### The output log: only PRN writes it (R35) -/

theorem handlerOf_out (i : Instr) : (handlerOf i s).state.out = s.out ++ (handlerOutput i s).toList := by
  cases i with
  | prn o => rfl
  | jeq o => simp [handlerOf, jeqHandler, handlerOutput]
  | jne o => simp [handlerOf, jneHandler, handlerOutput]
  | _ => exact (List.append_nil s.out).symm

theorem out_of_exec {i : Instr} {s t : State} (h : exec i s = .next t) :
    t.out = s.out ++ (handlerOutput i s).toList := by
  rw [eq_updatePc_of_exec h, updatePc_out, handlerOf_out]

/-! ### pc: a handler that reports false has left it alone (R26, R115) -/

theorem handlerOf_pc_of_pcSet_false {i : Instr} {s : State} (h : (handlerOf i s).pcSet = false) :
    (handlerOf i s).state.pc = s.pc := by
  cases i with
  | jeq o => exact branchHandler_pc_of_pcSet_false _ o s h
  | jne o => exact branchHandler_pc_of_pcSet_false _ o s h
  | call o => cases h
  | ret => cases h
  | jmp o => cases h
  | _ => rfl

theorem length_operandBytes (i : Instr) : (operandBytes i).length = operandCount i := by
  cases i <;> simp [operandBytes, operandCount, mnemonicOf]

/-- Modulo 256, whether it is written on numbers or on bytes (R6, R27). -/
theorem ofNat_toNat_add_mod (a : Byte) (k : Nat) : BitVec.ofNat 8 ((a.toNat + k) % 256) = a + BitVec.ofNat 8 k := by
  apply BitVec.eq_of_toNat_eq
  simp

/-- An instruction that does not set pc itself goes on after its own bytes, modulo 256 (R116). -/
theorem toNat_pc_of_exec {i : Instr} {s t : State} (hp : (handlerOf i s).pcSet = false) (h : exec i s = .next t) :
    t.pc.toNat = (s.pc.toNat + (operandBytes i).length + 1) % 256 := by
  rw [eq_updatePc_of_exec h, updatePc_of_pcSet_false _ hp, advancePc_pc, handlerOf_pc_of_pcSet_false hp,
    length_operandBytes]
  simp [Nat.add_assoc]

/-! ### FL: only CMP writes it, and only JEQ and JNE look at it (R29) -/

/-- What an instruction leaves in FL. -/
def flagAfter (i : Instr) (s : State) : Flag :=
  match i with
  | .cmp opa opb => compareFlag (readOperand s opa) (readOperand s opb)
  | _ => s.fl

theorem handlerOf_fl (i : Instr) : (handlerOf i s).state.fl = flagAfter i s := by
  cases i with
  | jeq o => exact branchHandler_fl _ o s
  | jne o => exact branchHandler_fl _ o s
  | _ => rfl

theorem fl_of_exec {i : Instr} {s t : State} (h : exec i s = .next t) : t.fl = flagAfter i s := by
  rw [eq_updatePc_of_exec h, updatePc_fl, handlerOf_fl]

theorem flagAfter_of_ne_cmp {i : Instr} (h : ∀ a b, i ≠ .cmp a b) : flagAfter i s = s.fl := by
  cases i with
  | cmp a b => exact absurd rfl (h a b)
  | _ => rfl

theorem compareFlag_ne_none (a b : Byte) : compareFlag a b ≠ .none := by
  unfold compareFlag
  split
  · exact Flag.noConfusion
  · split <;> exact Flag.noConfusion

theorem equalSet_congr {f g : Flag} (h : f = .equal ↔ g = .equal) : equalSet f = equalSet g := by
  rw [Bool.eq_iff_iff]
  simpa [equalSet] using h

theorem branchHandler_setFlag : branchHandler taken opa (setFlag s f) =
    ⟨(branchHandler taken opa s).pcSet, setFlag (branchHandler taken opa s).state f⟩ := by
  cases taken <;> rfl

/-- `f` is no news to the instruction: it does not look at FL, or `f` answers the one question it asks (R29). -/
def FlagUnseen (i : Instr) (s : State) (f : Flag) : Prop :=
  (∀ o, i ≠ .jeq o ∧ i ≠ .jne o) ∨ (f = .equal ↔ s.fl = .equal)

/-- A handler carries the FL it was given through, and does the same otherwise. -/
theorem handlerOf_setFlag {i : Instr} {s : State} {f : Flag} (h : FlagUnseen i s f) :
    handlerOf i (setFlag s f) =
      ⟨(handlerOf i s).pcSet, setFlag (handlerOf i s).state (flagAfter i (setFlag s f))⟩ := by
  cases i with
  | jeq o =>
    have e : equalSet f = equalSet s.fl := equalSet_congr (h.resolve_left fun hn => (hn o).1 rfl)
    simp [handlerOf, jeqHandler, e, branchHandler_setFlag, flagAfter]
  | jne o =>
    have e : equalSet f = equalSet s.fl := equalSet_congr (h.resolve_left fun hn => (hn o).2 rfl)
    simp [handlerOf, jneHandler, e, branchHandler_setFlag, flagAfter]
  | _ => rfl

theorem updatePc_setFlag : updatePc n ⟨r.pcSet, setFlag r.state f⟩ = setFlag (updatePc n r) f := by
  unfold updatePc
  split <;> rfl

theorem exec_setFlag {i : Instr} {s t : State} {f : Flag} (hf : FlagUnseen i s f) (h : exec i s = .next t) :
    exec i (setFlag s f) = .next (setFlag t (flagAfter i (setFlag s f))) := by
  rw [exec_eq_handler, handlerOf_setFlag hf, updatePc_setFlag, eq_updatePc_of_exec h]

/-- The debug output tells the flags apart (R31). -/
theorem flagByte_injective : Function.Injective flagByte := by
  intro f g h
  cases f <;> cases g <;> simp [flagByte] at h ⊢

/-! ### Fetch and ports -/

/-- The opcode byte is the whole key: it is that of the instruction decoded (R88). -/
theorem opcode_of_decode {ir opa opb : Byte} {i : Instr} (h : decode ir opa opb = .instr i) :
    ir = opcodeOf (mnemonicOf i) := by
  rcases decode_cases ir opa opb with ⟨m, hm, hd⟩ | ⟨_, _, hd⟩
  · obtain rfl : instrOf m opa opb = i := Decoded.instr.inj (hd.symm.trans h)
    rw [mnemonicOf_instrOf, hm]
  · cases hd.symm.trans h

theorem decodeOpcode_of_decode_illegal {ir opa opb : Byte} {c : Cause} (h : decode ir opa opb = .illegal c) :
    decodeOpcode ir = .illegal c := by
  rcases decode_cases ir opa opb with ⟨m, _, hd⟩ | ⟨_, hi, hd⟩
  · cases hd.symm.trans h
  · rw [hi, Decoded.illegal.inj (hd.symm.trans h)]

/-- An instruction in the bytes at pc is run, and does not fault (R110, R118). -/
theorem step_runs_without_fault {s : State} {i : Instr} (hr : s.run = .running)
    (hd : decode (loadByte s s.pc) (loadByte s (s.pc + 1)) (loadByte s (s.pc + 2)) = .instr i) :
    ∃ t, step s = .next t ∧ exec i s = .next t ∧ NotFaulted t := by
  obtain ⟨t, ht, hn⟩ := exec_completes s i
  have hstep : step s = exec i s := step_running_instr hr ((fetchDecode_eq s).trans hd)
  exact ⟨t, hstep.trans ht, ht, hn (notFaulted_of_running hr)⟩

theorem outPort_of_instr {s : State} {i : Instr} (hr : s.run = .running) (hd : fetchDecode s = .instr i) :
    outPort s = handlerOutput i s := by simp [outPort, hr, hd]

theorem outPort_of_illegal {s : State} {c : Cause} (hr : s.run = .running) (hd : fetchDecode s = .illegal c) :
    outPort s = none := by simp [outPort, hr, hd]

/-! ### Operand bytes, the stack pointer and reset -/

theorem ridx_canonicalByte (o : Byte) : ridx (canonicalByte o) = ridx o := by
  have h : (canonicalByte o).toNat = o.toNat % 8 := Nat.and_two_pow_sub_one_eq_mod o.toNat 3
  simp [ridx, h]

/-- No instruction looks at bits 7 to 3 of a register operand (R24). -/
theorem exec_canonical (i : Instr) : exec i.canonical s = exec i s := by
  cases i <;>
    simp only [Instr.canonical, ridx_canonicalByte, exec_add, exec_sub, exec_mul, exec_cmp, exec_ldi, exec_prn,
      exec_push, exec_pop, exec_call, exec_jmp, exec_jeq, exec_jne]

theorem loadByte_storeByte_self (a v : Byte) : loadByte (storeByte s a v) a = v := memRead_memWrite_self s.mem a v

/-- PUSH of a register other than sp stores what the register held before (R166). -/
theorem exec_push_of_ne_sp {opa : Byte} (h : ridx opa ≠ 7) : exec (.push opa) s =
    .next (advancePc (storeByte (setSp s (pushAddr s)) (pushAddr s) (readReg s (ridx opa))) 1) := by
  rw [exec_push, decrementSp, sp_setSp, setSp_eq, readReg_writeReg_ne h.symm]

theorem readReg_reset (i : RegIndex) : readReg State.reset i = if i = 7 then 0xF4 else 0 := by
  revert i
  decide

/-- A running block has no end state to tell of. -/
theorem inv_of_running {s : State} (hr : s.run = .running) (hm : s.mem.wf) : Inv s := by
  refine ⟨hm, ?_, ?_⟩
  · intro c op h
    cases hr.symm.trans h
  · intro h
    cases hr.symm.trans h

theorem inv_resetWith {image : Memory} (h : image.wf) : Inv (State.resetWith image) := inv_of_running rfl h

end Sys2Proof.Machine
end

section
/-! CERTIFICATES. The statements about the state: registers, pc, FL, the run state, the output log and reset. -/

namespace Sys2Proof.Machine

/-- Settles O45: reset leaves the block running, so canonical memory is all that is left to show. -/
theorem invariantHoldsAfterReset : Obligations.InvariantHoldsAfterReset :=
  ⟨inv_of_running rfl reset_mem_wf, fun _ h => inv_resetWith h⟩

/-- Settles O46, from the registers' reset values. -/
theorem resetPutsEveryRegisterToItsValue : Obligations.ResetPutsEveryRegisterToItsValue := by
  intro s
  refine ⟨readReg_reset 7, rfl, rfl, ?_, rfl, rfl, rfl⟩
  intro r hr
  exact (readReg_reset r).trans (if_neg hr)

/-- Settles O11: every decoded instruction completes without faulting, and addresses wrap as bytes do. -/
theorem pcWrapsPastTheTopOfMemory : Obligations.PcWrapsPastTheTopOfMemory := by
  refine ⟨?_, ?_, ?_, fun i s t => toNat_pc_of_exec⟩
  · intro s i hr hd
    rw [ofNat_toNat_add_mod, ofNat_toNat_add_mod] at hd
    exact step_runs_without_fault hr hd
  · intro s t h hf
    obtain ⟨hr, ⟨i, _, he⟩ | ⟨c, hd, _⟩⟩ := step_cases h
    · exact absurd (notFaulted_of_exec he (notFaulted_of_running hr)) hf
    · exact ⟨c, decodeOpcode_of_decode_illegal hd⟩
  · intro s i hr hpc hd
    apply step_runs_without_fault hr
    rw [hpc]
    exact hd

/-- Settles O14: a step into Halted ran an instruction, only HLT enters Halted, and only byte 0x01 decodes to HLT. -/
theorem haltedOnlyByHlt : Obligations.HaltedOnlyByHlt := by
  intro s t h ht
  obtain ⟨hr, ⟨i, hd, he⟩ | ⟨c, _, rfl⟩⟩ := step_cases h
  · have hi : i = .hlt := by
      by_contra hne
      rw [run_of_exec he, if_neg hne, hr] at ht
      cases ht
    subst hi
    exact opcode_of_decode hd
  · cases ht

/-- Settles O15: `ridx` keeps bits 2 to 0, so each instruction does what its canonical form does. -/
theorem registerOperandIsTakenModulo8 : Obligations.RegisterOperandIsTakenModulo8 := by
  refine ⟨?_, rfl, rfl, fun i s => exec_canonical s i, fun i s => exec_completes s i⟩
  intro o
  exact ⟨rfl, by simp [ridx]⟩

/-- Settles O16: after the LDI, sp reads as the immediate, and PUSH stores one below it. -/
theorem loadingRegister7MovesTheStack : Obligations.LoadingRegister7MovesTheStack := by
  intro s o v p ho hp
  refine ⟨_, _, exec_ldi o v s, exec_push_of_ne_sp _ hp, ?_⟩
  rw [ho, pushAddr_eq, readReg_advancePc, readReg_writeReg_self, readReg_advancePc, readReg_writeReg_ne hp.symm]
  exact ⟨loadByte_storeByte_self _ _ _, readReg_writeReg_self _ _ _⟩

/-- Settles O26: CMP alone writes FL, and a handler that learns nothing new from FL carries it through. -/
theorem flagsWrittenByCmpReadByJumps : Obligations.FlagsWrittenByCmpReadByJumps := by
  refine ⟨?_, ?_, ?_, flagByte_injective⟩
  · intro i s t h hi
    rw [fl_of_exec h, flagAfter_of_ne_cmp s hi]
  · intro a b s t h
    rw [fl_of_exec h]
    exact compareFlag_ne_none _ _
  · intro i s t f h hf
    refine ⟨_, exec_setFlag hf h, rfl, rfl, rfl, rfl, rfl, ?_⟩
    rw [setFlag_fl, fl_of_exec h]
    cases i <;> rfl

/-- Settles O31: a step runs one instruction, whose output the port presents, or enters Fault and emits nothing. -/
theorem outputLogGrowsByTheOutputPort : Obligations.OutputLogGrowsByTheOutputPort := by
  intro s t h
  obtain ⟨hr, ⟨i, hd, he⟩ | ⟨c, hd, rfl⟩⟩ := step_cases h
  · rw [outPort_of_instr hr hd, out_of_exec he]
  · rw [outPort_of_illegal hr hd]
    exact (List.append_nil s.out).symm

end Sys2Proof.Machine
end

section
/-! SUPPORT. Memory as the instructions and the loader use it: a run of writes, what a list of cells in canonical form
holds, and the port's accesses and their effect. -/

namespace Sys2Proof.Machine

/-! ### Reads after writes (R52, R53) -/

theorem loadByte_storeByte_ne (s : State) {a b : Byte} (v : Byte) (h : a ≠ b) :
    loadByte (storeByte s a v) b = loadByte s b := memRead_memWrite_ne s.mem v h

/-- Addresses and values are taken modulo 256. -/
theorem ofNat_eq_ofNat_iff (m n : Nat) : BitVec.ofNat 8 m = BitVec.ofNat 8 n ↔ m % 256 = n % 256 := by
  rw [← BitVec.toNat_inj, BitVec.toNat_ofNat, BitVec.toNat_ofNat]

theorem ofNat_mod (n : Nat) : BitVec.ofNat 8 (n % 256) = BitVec.ofNat 8 n :=
  (ofNat_eq_ofNat_iff _ _).mpr (Nat.mod_mod n 256)

/-- After a run of writes, a location holds what the last of them to name it wrote, or what it held before. -/
theorem memRead_foldl_memWrite (image : Memory) (writes : List (Nat × Nat)) (addr : Nat) :
    memRead (writes.foldl (fun m w => memWrite m (BitVec.ofNat 8 w.1) (BitVec.ofNat 8 w.2)) image)
        (BitVec.ofNat 8 addr) =
      (writes.reverse.find? fun w => w.1 % 256 == addr % 256).elim (memRead image (BitVec.ofNat 8 addr))
        fun w => BitVec.ofNat 8 w.2 := by
  induction writes using List.reverseRecOn with
  | nil => rfl
  | append_singleton ws w ih =>
    simp only [List.foldl_concat, memRead_memWrite, ih, ofNat_eq_ofNat_iff, List.reverse_concat]
    by_cases h : w.1 % 256 = addr % 256
    · simp [h]
    · simp [h]

/-- At most 256 bytes placed from `a` on do not run into each other: each is read at its own address modulo 256, and
every other location holds what it held (R64, R204). -/
theorem memRead_placeBytes (m : Memory) (a b : Byte) (vs : List Byte) (h : vs.length ≤ 256) :
    memRead (placeBytes m a vs) b = vs.getD (b - a).toNat (memRead m b) := by
  induction vs generalizing m a with
  | nil => rfl
  | cons v vs ih =>
    have hvs : vs.length ≤ 255 := Nat.le_of_succ_le_succ h
    rw [placeBytes, ih _ _ (by omega)]
    by_cases e : a = b
    · have past : vs.length ≤ (b - (a + 1)).toNat := by
        have : (b - (a + 1)).toNat = 255 := by bv_omega
        omega
      rw [List.getD_eq_default _ _ past, e, memRead_memWrite_self, BitVec.sub_self]
      rfl
    · have next : (b - a).toNat = (b - (a + 1)).toNat + 1 := by bv_omega
      rw [memRead_memWrite_ne _ _ e, next, List.getD_cons_succ]

/-! ### The canonical form -/

/-- A listed cell is what its address reads as, since no other cell has that address. -/
theorem lookupCell_of_mem {m : Memory} {c : Host.Cell} (h : m.Pairwise fun c d => c.1 < d.1) (hc : c ∈ m) :
    lookupCell c.1 m = c.2 := by
  induction m with
  | nil => cases hc
  | cons d m ih =>
    obtain ⟨hd, hm⟩ := List.pairwise_cons.mp h
    rcases List.mem_cons.mp hc with rfl | hc
    · simp [lookupCell]
    · have : d.1 ≠ c.1 := (hd c hc).ne
      simp [lookupCell, this, ih hm hc]

/-- An address that does not read as an unlisted one is listed. -/
theorem mem_of_lookupCell_ne {m : Memory} {a : Nat} (h : lookupCell a m ≠ unlistedByte) :
    (a, lookupCell a m) ∈ m := by
  induction m with
  | nil => exact absurd rfl h
  | cons c m ih =>
    unfold lookupCell at h ⊢
    split at h
    · rename_i e
      simp [← e]
    · rename_i e
      simpa [e] using .inr (ih h)

/-- A cell of a canonical memory is in every memory that reads the same. -/
theorem mem_of_memRead_eq {m m' : Memory} {c : Host.Cell} (h : m.wf) (e : ∀ a, memRead m a = memRead m' a)
    (hc : c ∈ m) : c ∈ m' := by
  obtain ⟨sorted, inside⟩ := h
  obtain ⟨hlt, hne⟩ := inside c hc
  have addr : (BitVec.ofNat 8 c.1).toNat = c.1 := Nat.mod_eq_of_lt hlt
  have hr : lookupCell c.1 m' = c.2 := by
    have hr := e (BitVec.ofNat 8 c.1)
    rw [memRead, memRead, addr, lookupCell_of_mem sorted hc] at hr
    exact hr.symm
  have listed : (c.1, lookupCell c.1 m') ∈ m' := mem_of_lookupCell_ne (hr.symm ▸ hne)
  rwa [hr] at listed

/-! ### The memory port (R58, R196) -/

theorem applyAccesses_append (m : Memory) (as bs : List BusAccess) :
    applyAccesses m (as ++ bs) = applyAccesses (applyAccesses m as) bs := by
  induction as generalizing m with
  | nil => rfl
  | cons a as ih => cases a <;> exact ih _

theorem applyAccesses_map_read {α : Type} (m : Memory) (l : List α) (addr : α → Byte) :
    applyAccesses m (l.map fun k => .read (addr k)) = m := by
  induction l with
  | nil => rfl
  | cons k l ih => exact ih

/-- Fetching reads only (R111, R113). -/
@[simp] theorem applyAccesses_fetchAccesses (m : Memory) (s : State) : applyAccesses m (fetchAccesses s) = m :=
  applyAccesses_map_read m _ _

/-- A location that reads otherwise after a list of accesses is one that they write. -/
theorem exists_write_of_memRead_ne {m : Memory} {as : List BusAccess} {a : Byte}
    (h : memRead (applyAccesses m as) a ≠ memRead m a) : ∃ v, .write a v ∈ as := by
  induction as generalizing m with
  | nil => exact absurd rfl h
  | cons b as ih =>
    cases b with
    | read b =>
      obtain ⟨v, hv⟩ := ih h
      exact ⟨v, List.mem_cons_of_mem _ hv⟩
    | write b w =>
      by_cases e : b = a
      · exact ⟨w, by simp [e]⟩
      · obtain ⟨v, hv⟩ := ih (m := memWrite m b w) (by rwa [memRead_memWrite_ne m w e])
        exact ⟨v, List.mem_cons_of_mem _ hv⟩

/-! ### An instruction's own accesses are all it does to memory (R51) -/

@[simp] theorem updatePc_mem (n : Nat) (r : HandlerResult) : (updatePc n r).mem = r.state.mem := by
  unfold updatePc
  split <;> rfl

@[simp] theorem branchHandler_mem (taken : Bool) (opa : Byte) (s : State) :
    (branchHandler taken opa s).state.mem = s.mem := by
  cases taken <;> rfl

theorem sp_decrementSp (s : State) : sp (decrementSp s) = pushAddr s := sp_setSp s _

theorem handlerOf_mem (i : Instr) (s : State) :
    (handlerOf i s).state.mem = applyAccesses s.mem (handlerAccesses i s) := by
  cases i with
  | push o => exact congrArg (memWrite s.mem · (readOperand (decrementSp s) o)) (sp_decrementSp s)
  | call o => exact congrArg (memWrite s.mem · (s.pc + 2)) (sp_decrementSp s)
  | jeq o => exact branchHandler_mem _ o s
  | jne o => exact branchHandler_mem _ o s
  | _ => rfl

theorem mem_of_exec {i : Instr} {s t : State} (h : exec i s = .next t) :
    t.mem = applyAccesses s.mem (handlerAccesses i s) := by
  rw [eq_updatePc_of_exec h, updatePc_mem, handlerOf_mem]

/-- Only PUSH and CALL make a write, below sp (R51). -/
theorem write_mem_handlerAccesses {i : Instr} {s : State} {a v : Byte} (h : .write a v ∈ handlerAccesses i s) :
    a = pushAddr s ∧ ∃ o, i = .push o ∨ i = .call o := by
  cases i with
  | push o =>
    obtain ⟨ha, -⟩ := BusAccess.write.inj (List.mem_singleton.mp h)
    exact ⟨ha, o, .inl rfl⟩
  | call o =>
    obtain ⟨ha, -⟩ := BusAccess.write.inj (List.mem_singleton.mp h)
    exact ⟨ha, o, .inr rfl⟩
  | _ => simp [handlerAccesses] at h

theorem cycleAccesses_of_instr {s : State} {i : Instr} (hr : s.run = .running) (hd : fetchDecode s = .instr i) :
    cycleAccesses s = fetchAccesses s ++ handlerAccesses i s := by simp [cycleAccesses, hr, hd]

/-- A cycle that ends in fault entry makes no write (R112, R114). -/
theorem applyAccesses_cycleAccesses_of_illegal {s : State} {c : Cause} (m : Memory) (hr : s.run = .running)
    (hd : fetchDecode s = .illegal c) : applyAccesses m (cycleAccesses s) = m := by
  cases c with
  | decodeFailure => simp [cycleAccesses, hr, hd, applyAccesses]
  | unsupportedAluOperation => simp [cycleAccesses, hr, hd]

/-! ### Fetch -/

/-- The step runs what the bytes at pc decode to (R110). -/
theorem step_eq_exec_of_decode {s : State} {i : Instr} (hr : s.run = .running)
    (hd : decode (loadByte s s.pc) (loadByte s (s.pc + 1)) (loadByte s (s.pc + 2)) = .instr i) : step s = exec i s :=
  step_running_instr hr ((fetchDecode_eq s).trans hd)

end Sys2Proof.Machine
end

section
/-! CERTIFICATES. The statements about memory: reads and writes, the port, fetching what a PUSH stored, the loader. -/

namespace Sys2Proof.Machine

/-- Settles O17, from the run of writes taken last write first; POP and RET make no write on the port. -/
theorem memReadReturnsTheLatestWrite : Obligations.MemReadReturnsTheLatestWrite := by
  refine ⟨?_, fun _ _ _ h => mem_of_exec h, fun _ _ h => mem_of_exec h⟩
  intro image writes addr
  rw [memRead_foldl_memWrite]
  cases writes.reverse.find? fun w => w.1 % 256 == addr % 256 with
  | none => simp only [Option.elim_none, ofNat_mod]
  | some w => simp only [Option.elim_some, ofNat_mod]

/-- Settles O18: the byte written reads back, and an address that differs modulo 256 is another location. -/
theorem memWriteTouchesExactlyOneByte : Obligations.MemWriteTouchesExactlyOneByte := by
  intro s addr v
  refine ⟨?_, ?_, fun r => readReg_storeByte .., rfl, rfl, rfl, rfl⟩
  · rw [ofNat_mod, loadByte_storeByte_self, BitVec.toNat_ofNat]
  · intro a ha
    apply loadByte_storeByte_ne
    rintro rfl
    exact ha (BitVec.toNat_ofNat addr 8)

/-- Settles O19: the two lists have the same cells, and their addresses rise. -/
theorem canonicalMemoryIsDeterminedByReads : Obligations.CanonicalMemoryIsDeterminedByReads := by
  intro m m' h h' e
  have cells : ∀ c, c ∈ m ↔ c ∈ m' := fun c =>
    ⟨mem_of_memRead_eq h e, mem_of_memRead_eq h' fun a => (e a).symm⟩
  have : Std.Irrefl fun c d : Host.Cell => c.1 < d.1 := ⟨fun c => lt_irrefl c.1⟩
  have : Std.Antisymm fun c d : Host.Cell => c.1 < d.1 := ⟨fun _ _ hcd hdc => absurd hdc hcd.asymm⟩
  exact h.1.eq_of_mem_iff h'.1 cells

/-- Settles O40: a byte that changed was written by one of the handler's accesses. -/
theorem onlyPushAndCallWriteMemory : Obligations.OnlyPushAndCallWriteMemory := by
  intro i s t h a ha
  rw [loadByte, loadByte, mem_of_exec h] at ha
  obtain ⟨v, hv⟩ := exists_write_of_memRead_ne ha
  exact write_mem_handlerAccesses hv

/-- Settles O41: fetching writes nothing, an instruction does to memory what its accesses do, fault entry nothing. -/
theorem memoryFollowsTheMemoryPort : Obligations.MemoryFollowsTheMemoryPort := by
  intro s t h
  obtain ⟨hr, ⟨i, hd, he⟩ | ⟨c, hd, rfl⟩⟩ := step_cases h
  · rw [cycleAccesses_of_instr hr hd, applyAccesses_append, applyAccesses_fetchAccesses, mem_of_exec he]
  · exact (applyAccesses_cycleAccesses_of_illegal s.mem hr hd).symm

/-- Settles O42: the PUSH is run on the bytes fetched; after it, pc addresses the byte it stored, and the two bytes that
follow are untouched. -/
theorem stackWriteIsSeenByTheNextFetch : Obligations.StackWriteIsSeenByTheNextFetch := by
  intro s o hr hop ho
  have hstep : step s = exec (.push o) s := by
    apply step_eq_exec_of_decode hr
    rw [hop, ho]
    exact decode_opcodeOf .push o _
  refine ⟨hstep, ?_⟩
  intro hne haddr
  refine ⟨_, hstep.trans (exec_push_of_ne_sp s hne), ?_⟩
  intro i hi
  have pc3 : s.pc + 3 = s.pc + 2 + 1 := by bv_omega
  have pc4 : s.pc + 4 = s.pc + 2 + 2 := by bv_omega
  have ne1 : s.pc + 2 ≠ s.pc + 2 + 1 := by bv_omega
  have ne2 : s.pc + 2 ≠ s.pc + 2 + 2 := by bv_omega
  rw [pc3, pc4] at hi
  refine step_eq_exec_of_decode hr ?_
  rw [haddr]
  show decode (loadByte (storeByte _ (s.pc + 2) _) (s.pc + 2)) (loadByte (storeByte _ (s.pc + 2) _) (s.pc + 2 + 1))
    (loadByte (storeByte _ (s.pc + 2) _) (s.pc + 2 + 2)) = _
  rw [loadByte_storeByte_self, loadByte_storeByte_ne _ _ ne1, loadByte_storeByte_ne _ _ ne2]
  exact hi

/-- Settles O48: the loader takes up to 256 bytes, and these do not run into each other. -/
theorem loaderPlacesBytesFromAddress0 : Obligations.LoaderPlacesBytesFromAddress0 := by
  refine ⟨?_, ?_⟩
  · intro bytes
    exact Option.isSome_ite.symm
  · intro bytes m h a
    obtain ⟨hlen, ⟨⟩⟩ := Option.ite_none_right_eq_some.mp h
    rw [memRead_placeBytes _ _ _ _ hlen, loadBase, sub_zero]
    rfl

end Sys2Proof.Machine
end

section
/-! SUPPORT. The encoding: what the byte decoder answers on the bytes of a row, the fields of an opcode byte as numbers,
and the lines of a program file as the loader reads them. -/

namespace Sys2Proof.Machine

/-! ### A row's opcode followed by its operand bytes (R80, R83, R85) -/

section

variable {m : Mnemonic}

theorem decodeBytes_of_no_operand (h : operandCountField (opcodeOf m) = 0) (rest : List Byte) :
    decodeBytes (opcodeOf m :: rest) = .instr (instrOf m 0 0) rest := by
  simp only [decodeBytes, decodeOpcode_opcodeOf, h]

theorem decodeBytes_of_one_operand (h : operandCountField (opcodeOf m) = 1) (opa : Byte) (rest : List Byte) :
    decodeBytes (opcodeOf m :: opa :: rest) = .instr (instrOf m opa 0) rest := by
  simp only [decodeBytes, decodeOpcode_opcodeOf, h]

theorem decodeBytes_of_two_operands (h : operandCountField (opcodeOf m) = 2) (opa opb : Byte) (rest : List Byte) :
    decodeBytes (opcodeOf m :: opa :: opb :: rest) = .instr (instrOf m opa opb) rest := by
  simp only [decodeBytes, decodeOpcode_opcodeOf, h]

theorem decodeBytes_of_missing_operand {tail : List Byte} (hn : operandCountField (opcodeOf m) ≤ 2)
    (h : tail.length < operandCountField (opcodeOf m)) : decodeBytes (opcodeOf m :: tail) = .truncated := by
  generalize hk : operandCountField (opcodeOf m) = k at *
  simp only [decodeBytes, decodeOpcode_opcodeOf, hk]
  match k, tail with
  | 1, [] | 2, [] | 2, [_] => rfl

end

theorem operandCountField_opcodeOf_le_two (m : Mnemonic) : operandCountField (opcodeOf m) ≤ 2 := by
  cases m <;> simp

/-- A row's instruction has the operand bytes of its format: the first NN of the two given (R80, R85). -/
theorem operandBytes_instrOf (m : Mnemonic) (opa opb : Byte) :
    operandBytes (instrOf m opa opb) = [opa, opb].take (operandCountField (opcodeOf m)) := by
  cases m <;> simp [instrOf, operandBytes]

theorem encode_instrOf (m : Mnemonic) (opa opb : Byte) :
    encode (instrOf m opa opb) = opcodeOf m :: [opa, opb].take (operandCountField (opcodeOf m)) := by
  rw [encode, mnemonicOf_instrOf, operandBytes_instrOf]

/-- Decoding gives back the instruction encoded and what follows it, by the instruction's format. -/
theorem decodeBytes_encode (i : Instr) (rest : List Byte) : decodeBytes (encode i ++ rest) = .instr i rest := by
  cases i with
  | hlt | ret => exact decodeBytes_of_no_operand (operandCountField_opcodeOf _) rest
  | prn opa | push opa | pop opa | call opa | jmp opa | jeq opa | jne opa =>
    exact decodeBytes_of_one_operand (operandCountField_opcodeOf _) opa rest
  | add opa opb | sub opa opb | mul opa opb | cmp opa opb | ldi opa opb =>
    exact decodeBytes_of_two_operands (operandCountField_opcodeOf _) opa opb rest

/-- The operand bytes that a format declares, where there are enough bytes for it. -/
theorem exists_operands {n : Nat} {tail : List Byte} (hn : n ≤ 2) (h : n ≤ tail.length) :
    ∃ opa opb rest, tail = [opa, opb].take n ++ rest := by
  match n, tail with
  | 0, tail => exact ⟨0, 0, tail, rfl⟩
  | 1, opa :: tail => exact ⟨opa, 0, tail, rfl⟩
  | 2, opa :: opb :: tail => exact ⟨opa, opb, tail, rfl⟩

/-- A row's opcode is followed by too few bytes, or begins that row's instruction. -/
theorem decodeBytes_opcodeOf_cases (m : Mnemonic) (tail : List Byte) :
    decodeBytes (opcodeOf m :: tail) = .truncated ∨
      ∃ i rest, opcodeOf m :: tail = encode i ++ rest ∧ decodeBytes (opcodeOf m :: tail) = .instr i rest := by
  have hn := operandCountField_opcodeOf_le_two m
  rcases lt_or_ge tail.length (operandCountField (opcodeOf m)) with hlen | hlen
  · exact .inl (decodeBytes_of_missing_operand hn hlen)
  · obtain ⟨opa, opb, rest, rfl⟩ := exists_operands hn hlen
    have bytes_eq : opcodeOf m :: ([opa, opb].take (operandCountField (opcodeOf m)) ++ rest) =
        encode (instrOf m opa opb) ++ rest := by rw [encode_instrOf, List.cons_append]
    refine .inr ⟨instrOf m opa opb, rest, bytes_eq, ?_⟩
    rw [bytes_eq, decodeBytes_encode]

theorem decodeBytes_of_illegal {ir : Byte} {c : Cause} (h : decodeOpcode ir = .illegal c) (tail : List Byte) :
    decodeBytes (ir :: tail) = .illegal c ir := by
  simp only [decodeBytes, h]

/-! ### The fields of an opcode byte as numbers (R81) -/

theorem operandCountField_eq (ir : Byte) : operandCountField ir = ir.toNat / 64 := by
  have := ir.isLt
  simp only [operandCountField, BitVec.extractLsb'_toNat, Nat.shiftRight_eq_div_pow]
  omega

theorem getLsbD_eq_true_iff (ir : Byte) (k : Nat) : ir.getLsbD k = true ↔ ir.toNat / 2 ^ k % 2 = 1 := by
  simp [BitVec.getLsbD, Nat.testBit_eq_decide_div_mod_eq]

theorem aluField_iff (ir : Byte) : aluField ir = true ↔ ir.toNat / 32 % 2 = 1 := getLsbD_eq_true_iff ir 5

theorem setsPcField_iff (ir : Byte) : setsPcField ir = true ↔ ir.toNat / 16 % 2 = 1 := getLsbD_eq_true_iff ir 4

/-- Bit 5 tells the ALU operations (R94). -/
theorem aluField_opcodeOf_iff (m : Mnemonic) :
    aluField (opcodeOf m) = true ↔ m ∈ [Mnemonic.add, .sub, .mul, .cmp] := by
  cases m <;> decide

/-- Bit 4 tells the operations that set pc (R94). -/
theorem setsPcField_opcodeOf_iff (m : Mnemonic) :
    setsPcField (opcodeOf m) = true ↔ m ∈ [Mnemonic.call, .ret, .jmp, .jeq, .jne] := by
  cases m <;> decide

/-! ### Undefined opcode bytes (R89) -/

theorem opcodeOf_mem (m : Mnemonic) : opcodeOf m ∈
    ([0x01, 0x11, 0x45, 0x46, 0x47, 0x50, 0x54, 0x55, 0x56, 0x82, 0xA0, 0xA1, 0xA2, 0xA7] : List Byte) := by
  cases m <;> decide

theorem illegalCause_eq (ir : Byte) : illegalCause ir = if ir.toNat / 64 = 3 then .decodeFailure
    else if ir.toNat / 32 % 2 = 1 then .unsupportedAluOperation else .decodeFailure := by
  simp only [illegalCause, operandCountField_eq, aluField_iff]

/-- A running block that fetches no row's opcode takes fault entry (R217). -/
theorem step_of_undefined_opcode {s : State} (hr : s.run = .running) (h : ∀ m, opcodeOf m ≠ loadByte s s.pc) :
    step s = .next (raiseFault s (illegalCause (loadByte s s.pc)) (loadByte s s.pc)) := by
  rcases decode_cases (loadByte s s.pc) (loadByte s (s.pc + 1)) (loadByte s (s.pc + 2)) with
    ⟨m, hm, _⟩ | ⟨_, _, hd⟩
  · exact absurd hm (h m)
  · exact step_running_illegal hr ((fetchDecode_eq s).trans hd)

/-! ### A byte's literal (R5, R98) -/

/-- The character of a binary digit. -/
def charOfBit (b : Bool) : Char := if b then '1' else '0'

theorem bitOfChar_charOfBit (b : Bool) : bitOfChar (charOfBit b) = some b.toNat := by cases b <;> decide

theorem not_isBlankChar_charOfBit (b : Bool) : isBlankChar (charOfBit b) = false := by cases b <;> decide

theorem charOfBit_ne_hash (b : Bool) : charOfBit b ≠ '#' := by cases b <;> decide

theorem literalOf_eq (v : Byte) : literalOf v = (List.range 8).map fun k => charOfBit (v.getLsbD (7 - k)) := rfl

theorem exists_bit_of_mem_literalOf {v : Byte} {c : Char} (h : c ∈ literalOf v) : ∃ b, charOfBit b = c := by
  rw [literalOf_eq] at h
  obtain ⟨k, -, rfl⟩ := List.mem_map.mp h
  exact ⟨_, rfl⟩

theorem readBits_append (acc : Nat) (cs ds : List Char) :
    readBits acc (cs ++ ds) = (readBits acc cs).bind fun n => readBits n ds := by
  induction cs generalizing acc with
  | nil => rfl
  | cons c cs ih =>
    cases h : bitOfChar c with
    | none => simp [readBits, h]
    | some b => simp [readBits, h, ih]

/-- The first `k` digits of a byte's literal write its top `k` bits. -/
theorem readBits_top_digits (v : Byte) {k : Nat} (hk : k ≤ 8) :
    readBits 0 ((List.range k).map fun j => charOfBit (v.getLsbD (7 - j))) = some (v.toNat / 2 ^ (8 - k)) := by
  induction k with
  | zero => simpa [readBits] using (Nat.div_eq_of_lt v.isLt).symm
  | succ k ih =>
    have half : v.toNat / 2 ^ (8 - k) = v.toNat / 2 ^ (7 - k) / 2 := by
      rw [Nat.div_div_eq_div_mul, ← Nat.pow_succ, show 8 - k = 7 - k + 1 by omega]
    have bit : (v.getLsbD (7 - k)).toNat = v.toNat / 2 ^ (7 - k) % 2 := Nat.toNat_testBit v.toNat (7 - k)
    rw [List.range_succ, List.map_append, readBits_append, ih (by omega)]
    simp only [Option.bind_some, List.map_cons, List.map_nil, readBits, bitOfChar_charOfBit, Option.some.injEq, bit,
      half, Nat.div_add_mod]
    congr 2
    omega

theorem readBits_literalOf (v : Byte) : readBits 0 (literalOf v) = some v.toNat := by
  rw [literalOf_eq, readBits_top_digits v le_rfl]
  simp

/-! ### A written line (R98) -/

theorem dropWhile_isBlankChar {blanks cs : List Char} (hb : ∀ c ∈ blanks, isBlankChar c = true)
    (hc : ∀ c ∈ cs, isBlankChar c = false) : (blanks ++ cs).dropWhile isBlankChar = cs := by
  rw [List.dropWhile_append_of_pos hb, List.dropWhile_eq_self_iff]
  intro hpos
  simp [hc]

/-- Blanks on either side go, and what stands between them stays if it holds none. -/
theorem strip_blanks {before cs after : List Char} (hb : ∀ c ∈ before, isBlankChar c = true)
    (hc : ∀ c ∈ cs, isBlankChar c = false) (ha : ∀ c ∈ after, isBlankChar c = true) :
    (((before ++ (cs ++ after)).dropWhile isBlankChar).reverse.dropWhile isBlankChar).reverse = cs := by
  rw [List.dropWhile_append_of_pos hb]
  cases cs with
  | nil => simp [List.dropWhile_eq_nil_iff.mpr ha]
  | cons c cs =>
    have left : (c :: cs ++ after).dropWhile isBlankChar = c :: cs ++ after :=
      List.dropWhile_cons_of_neg (by simp [hc c])
    rw [left, List.reverse_append, dropWhile_isBlankChar (by simpa using ha) fun d hd => hc d (List.mem_reverse.mp hd),
      List.reverse_reverse]

/-- A line's literal, or nothing where it has none. -/
def literalText (l : WrittenLine) : List Char := l.byte.elim [] literalOf

theorem exists_bit_of_mem_literalText {l : WrittenLine} {c : Char} (h : c ∈ literalText l) :
    ∃ b, charOfBit b = c := by
  unfold literalText at h
  cases hb : l.byte with
  | none => simp [hb] at h
  | some v => exact exists_bit_of_mem_literalOf (by simpa [hb] using h)

theorem takeWhile_comment (comment : Option (List Char)) :
    (comment.elim [] ('#' :: ·)).takeWhile (fun c => c != '#') = [] := by
  cases comment <;> rfl

theorem ne_hash_of_isBlankChar {c : Char} (h : isBlankChar c = true) : c ≠ '#' := by
  rintro rfl
  cases h

/-- Stripping leaves the literal of a written line: its comment begins at its first `#`, and digits are no blanks. -/
theorem stripLine_lineText {l : WrittenLine} (h : blanksOnly l) : stripLine (lineText l) = literalText l := by
  obtain ⟨hb, ha⟩ := h
  rw [List.all_eq_true] at hb ha
  have hl : ∀ c ∈ literalText l, isBlankChar c = false := by
    intro c hc
    obtain ⟨b, rfl⟩ := exists_bit_of_mem_literalText hc
    exact not_isBlankChar_charOfBit b
  have noHash : ∀ c ∈ l.before ++ (literalText l ++ l.after), (c != '#') = true := by
    intro c hc
    rw [bne_iff_ne]
    rcases List.mem_append.mp hc with hc | hc
    · exact ne_hash_of_isBlankChar (hb c hc)
    · rcases List.mem_append.mp hc with hc | hc
      · obtain ⟨b, rfl⟩ := exists_bit_of_mem_literalText hc
        exact charOfBit_ne_hash b
      · exact ne_hash_of_isBlankChar (ha c hc)
  have text : lineText l = l.before ++ (literalText l ++ l.after) ++ l.comment.elim [] ('#' :: ·) := by
    simp only [lineText, literalText, List.append_assoc]
  rw [stripLine, text, List.takeWhile_append_of_pos noHash, takeWhile_comment, List.append_nil, strip_blanks hb hl ha]

theorem parseLine_of_blank {line : List Char} (h : stripLine line = []) : parseLine line = .skipped := by
  simp [parseLine, h]

theorem parseLine_of_literal {line : List Char} {v : Byte} (h : stripLine line = literalOf v) :
    parseLine line = .byte v := by
  have length : (literalOf v).length = 8 := by simp [literalOf]
  rw [parseLine, h]
  split
  · rename_i empty
    simp [empty] at length
  · simp [length, readBits_literalOf]

/-- A written line is read as what it was written for. -/
theorem parseLine_lineText {l : WrittenLine} (h : blanksOnly l) :
    parseLine (lineText l) = l.byte.elim .skipped .byte := by
  have strip := stripLine_lineText h
  cases hb : l.byte with
  | none => exact parseLine_of_blank (by simpa [literalText, hb] using strip)
  | some v => exact parseLine_of_literal (by simpa [literalText, hb] using strip)

end Sys2Proof.Machine
end

section
/-! CERTIFICATES. The statements about the encoding: the decoder and the encoder, the descriptor, undefined opcode
bytes, and the program file. -/

namespace Sys2Proof.Machine

/-- Settles O1, by the format of the instruction: no, one or two operand bytes. -/
theorem decodeInvertsEncode : Obligations.DecodeInvertsEncode := decodeBytes_encode

/-- Settles O2: the first byte is some row's opcode, and enough bytes for that row's format stand after it. -/
theorem onlyTheEncodingDecodes : Obligations.OnlyTheEncodingDecodes := by
  intro bytes i rest h
  cases bytes with
  | nil => cases h
  | cons ir tail =>
    rcases decodeOpcode_cases ir with ⟨m, rfl, -⟩ | ⟨-, hd⟩
    · rcases decodeBytes_opcodeOf_cases m tail with ht | ⟨j, rest', bytes_eq, hj⟩
      · cases ht.symm.trans h
      · obtain ⟨rfl, rfl⟩ := StreamDecoded.instr.inj (hj.symm.trans h)
        exact bytes_eq
    · cases (decodeBytes_of_illegal hd tail).symm.trans h

/-- Settles O4: a descriptor holds its byte's own fields, and the byte is its mnemonic's opcode. -/
theorem descriptorIsReadFromTheFields : Obligations.DescriptorIsReadFromTheFields := by
  intro ir d h
  rcases decodeOpcode_cases ir with ⟨m, rfl, hd⟩ | ⟨-, hd⟩
  · obtain rfl := OpcodeClass.ok.inj (hd.symm.trans h)
    exact ⟨operandCountField_eq _, operandCountField_opcodeOf_le_two m, aluField_iff _, setsPcField_iff _,
      aluField_opcodeOf_iff m, setsPcField_opcodeOf_iff m⟩
  · cases hd.symm.trans h

/-- Settles O12: the 14 bytes of the list are the rows' opcodes, so this byte is no row's and takes fault entry. -/
theorem undefinedOpcodeTakesFaultEntry : Obligations.UndefinedOpcodeTakesFaultEntry := by
  intro s hr ir hir cause
  have undefined : ∀ m, opcodeOf m ≠ loadByte s s.pc := by
    intro m hm
    apply hir
    show loadByte s s.pc ∈ _
    exact hm ▸ opcodeOf_mem m
  rw [step_of_undefined_opcode hr undefined, raiseFault_eq, illegalCause_eq]

/-- Settles O49, line by line. -/
theorem programFileIsReadByteByByte : Obligations.ProgramFileIsReadByteByByte := by
  intro lines h
  induction lines with
  | nil => rfl
  | cons l lines ih =>
    obtain ⟨hl, hlines⟩ := List.forall_mem_cons.mp h
    have line := parseLine_lineText hl
    cases hb : l.byte with
    | none => simpa [parseProgram, line, hb] using ih hlines
    | some v => simp [parseProgram, line, hb, ih hlines]

/-- Settles O3: each word is the encoding of its instruction. -/
theorem writtenOutWordsDecode : Obligations.WrittenOutWordsDecode :=
  ⟨decodeBytes_encode (.add 1 2) [], decodeBytes_encode (.cmp 3 4) [], decodeBytes_encode .hlt [],
    decodeBytes_encode (.ldi 5 255) [], decodeBytes_encode (.prn 6) [], decodeBytes_encode (.push 7) [],
    decodeBytes_encode (.call 1) [], decodeBytes_encode .ret []⟩

end Sys2Proof.Machine
end

section
/-! SUPPORT. The cycle as a whole: step 5 as numbers, which handlers set pc, what a running block does by the class of the
opcode byte it fetches, a word placed at pc, and what a step leaves of the invariant. -/

namespace Sys2Proof.Machine

/-! ### Step 5 as numbers (R116) -/

theorem operandCount_eq (i : Instr) : operandCount i = (opcodeOf (mnemonicOf i)).toNat / 64 :=
  operandCountField_eq _

theorem advancePc_eq (s : State) (n : Nat) :
    advancePc s n = { s with pc := BitVec.ofNat 8 ((s.pc.toNat + n + 1) % 256) } := by
  rw [Nat.add_assoc, ofNat_toNat_add_mod]
  rfl

theorem updatePc_eq (n : Nat) (r : HandlerResult) :
    updatePc n r = if r.pcSet then r.state
      else { r.state with pc := BitVec.ofNat 8 ((r.state.pc.toNat + n + 1) % 256) } := by
  rw [updatePc, advancePc_eq]

/-- A jump that is not taken advances by 2 (R181). -/
theorem advancePc_one (s : State) :
    advancePc s 1 = { s with pc := BitVec.ofNat 8 ((s.pc.toNat + 2) % 256) } := advancePc_eq s 1

/-! ### Which handlers set pc (R115) -/

theorem equalSet_iff (f : Flag) : equalSet f = true ↔ f = .equal := beq_iff_eq

@[simp] theorem branchHandler_pcSet (taken : Bool) (opa : Byte) (s : State) :
    (branchHandler taken opa s).pcSet = taken := by
  cases taken <;> rfl

theorem handlerOf_pcSet_iff (i : Instr) (s : State) : (handlerOf i s).pcSet = true ↔
    (∃ o, i = .call o) ∨ i = .ret ∨ (∃ o, i = .jmp o) ∨ (∃ o, i = .jeq o ∧ s.fl = .equal) ∨
      (∃ o, i = .jne o ∧ s.fl ≠ .equal) := by
  cases i with
  | jeq o => simp [handlerOf, jeqHandler, equalSet_iff]
  | jne o => simp [handlerOf, jneHandler, ← equalSet_iff]
  | call o | ret | jmp o => exact iff_of_true rfl (by simp)
  | _ => exact iff_of_false Bool.false_ne_true (by simp)

/-! ### A running block, by the class of the opcode byte (R110, R112) -/

theorem decode_of_ok {ir : Byte} {d : Descriptor} (h : decodeOpcode ir = .ok d) (opa opb : Byte) :
    decode ir opa opb = .instr (instrOf d.mnemonic opa opb) := by
  simp [decode, h]

theorem opcodeOf_mnemonic {ir : Byte} {d : Descriptor} (h : decodeOpcode ir = .ok d) : opcodeOf d.mnemonic = ir := by
  rcases decodeOpcode_cases ir with ⟨m, hm, hd⟩ | ⟨-, hd⟩
  · obtain rfl := OpcodeClass.ok.inj (hd.symm.trans h)
    exact hm
  · cases hd.symm.trans h

theorem step_of_ok {s : State} {d : Descriptor} (hr : s.run = .running) (h : decodeOpcode (loadByte s s.pc) = .ok d) :
    step s = exec (instrOf d.mnemonic (loadByte s (s.pc + 1)) (loadByte s (s.pc + 2))) s :=
  step_eq_exec_of_decode hr (decode_of_ok h _ _)

theorem step_of_illegal {s : State} {c : Cause} (hr : s.run = .running)
    (h : decodeOpcode (loadByte s s.pc) = .illegal c) :
    step s = .next { s with run := .fault c (loadByte s s.pc) } :=
  step_running_illegal hr (by simp [fetchDecode_eq, decode, h])

/-- Every row's instruction and every undefined byte lead to a next state. -/
theorem exists_step_of_running {s : State} (hr : s.run = .running) : ∃ t, step s = .next t := by
  cases hd : fetchDecode s with
  | instr i =>
    obtain ⟨t, ht, -⟩ := exec_completes s i
    exact ⟨t, (step_running_instr hr hd).trans ht⟩
  | illegal c => exact ⟨_, step_running_illegal hr hd⟩

/-! ### A word placed at pc (R111, R113) -/

/-- With two bytes after its opcode, a row's instruction is complete; those it does not declare stay. -/
theorem decodeBytes_opcodeOf (m : Mnemonic) (opa opb : Byte) :
    decodeBytes [opcodeOf m, opa, opb] =
      .instr (instrOf m opa opb) ([opa, opb].drop (operandCountField (opcodeOf m))) := by
  have bytes_eq : [opcodeOf m, opa, opb] =
      encode (instrOf m opa opb) ++ [opa, opb].drop (operandCountField (opcodeOf m)) := by
    rw [encode_instrOf, List.cons_append, List.take_append_drop]
  rw [bytes_eq, decodeBytes_encode]

/-- The decoder of a list of bytes and the decoder of a fetch agree. -/
theorem decode_of_decodeBytes {ir opa opb : Byte} {i : Instr} {rest : List Byte}
    (h : decodeBytes [ir, opa, opb] = .instr i rest) : decode ir opa opb = .instr i := by
  rcases decodeOpcode_cases ir with ⟨m, rfl, -⟩ | ⟨-, hd⟩
  · obtain ⟨rfl, -⟩ := StreamDecoded.instr.inj ((decodeBytes_opcodeOf m opa opb).symm.trans h)
    exact decode_opcodeOf m opa opb
  · cases (decodeBytes_of_illegal hd _).symm.trans h

theorem decodeBytes_of_decodeTableWord {nbits w : Nat} {i : Instr} (h : decodeTableWord nbits w = some i) :
    ∃ rest, decodeBytes (tableWordBytes nbits w) = .instr i rest := by
  unfold decodeTableWord at h
  split at h
  · next j rest hd =>
    obtain rfl := Option.some.inj h
    exact ⟨rest, hd⟩
  · cases h
  · cases h

/-- The three bytes the next cycle fetches are those of the word placed. -/
theorem fetched_bytes_withFetchWord (s : State) (nbits w : Nat) :
    let t := s.withFetchWord nbits w
    [loadByte t t.pc, loadByte t (t.pc + 1), loadByte t (t.pc + 2)] = tableWordBytes nbits w := by
  have placed : ∀ b, loadByte (s.withFetchWord nbits w) b =
      (tableWordBytes nbits w).getD (b - s.pc).toNat (loadByte s b) :=
    fun b => memRead_placeBytes s.mem s.pc b _ (by simp [tableWordBytes])
  have hpc : (s.withFetchWord nbits w).pc = s.pc := rfl
  simp only [placed, hpc, sub_self, add_sub_cancel_left]
  rfl

/-! ### The invariant -/

theorem applyAccesses_wf {m : Memory} (as : List BusAccess) (h : m.wf) : (applyAccesses m as).wf := by
  induction as generalizing m with
  | nil => exact h
  | cons a as ih =>
    cases a with
    | read b => exact ih h
    | write b v => exact ih (memWrite_wf b v h)

/-- Only HLT takes a running block to Halted (R32). -/
theorem eq_hlt_of_exec {i : Instr} {s t : State} (hr : s.run = .running) (h : exec i s = .next t)
    (ht : t.run = .halted) : i = .hlt := by
  by_contra hne
  rw [run_of_exec h, if_neg hne, hr] at ht
  cases ht

/-- HLT leaves pc just after its own opcode, which stays in memory (R121). -/
theorem loadByte_before_pc_of_exec_hlt {s t : State} (h : exec .hlt s = .next t) :
    loadByte t (t.pc - 1) = loadByte s s.pc := by
  obtain rfl := Host.Outcome.next.inj ((exec_hlt s).symm.trans h)
  rw [loadByte_advancePc, loadByte_setRun, advancePc_pc, setRun_pc]
  exact congrArg (loadByte s) (add_sub_cancel_right s.pc 1)

/-- An instruction fetched by a running block keeps memory canonical, does not fault, and halts only as HLT. -/
theorem inv_of_exec {i : Instr} {s t : State} (hm : s.mem.wf) (hr : s.run = .running) (hd : fetchDecode s = .instr i)
    (he : exec i s = .next t) : Inv t := by
  refine ⟨?_, ?_, ?_⟩
  · rw [mem_of_exec he]
    exact applyAccesses_wf _ hm
  · intro c op hf
    exact absurd hf (notFaulted_of_exec he (notFaulted_of_running hr) c op)
  · intro ht
    obtain rfl := eq_hlt_of_exec hr he ht
    exact (loadByte_before_pc_of_exec_hlt he).trans (opcode_of_decode hd)

/-- Fault entry leaves pc at the byte it records, with the cause that byte reports (R215, R217). -/
theorem inv_raiseFault {s : State} {c : Cause} (hm : s.mem.wf) (hd : fetchDecode s = .illegal c) :
    Inv (raiseFault s c (fetchOpcode s)) := by
  refine ⟨hm, ?_, ?_⟩
  · intro c' op hf
    obtain ⟨rfl, rfl⟩ := RunState.fault.inj hf
    exact ⟨rfl, decodeOpcode_of_decode_illegal hd⟩
  · intro h
    cases h

end Sys2Proof.Machine
end

section
/-! CERTIFICATES. The statements about the Executor's cycle: the invariant, the numbered steps, pc's update, and when
there is a next state. -/

namespace Sys2Proof.Machine

/-- Settles O44: a step ran one instruction from a running block, or took fault entry. -/
theorem everyStepKeepsTheInvariant : Obligations.EveryStepKeepsTheInvariant := by
  intro s t hs h
  obtain ⟨hm, -, -⟩ := hs
  obtain ⟨hr, ⟨i, hd, he⟩ | ⟨c, hd, rfl⟩⟩ := step_cases h
  · exact inv_of_exec hm hr hd he
  · exact inv_raiseFault hm hd

/-- Settles O5, by the class of the opcode byte; a defined byte is its own mnemonic's opcode, so n is the same read from
either. -/
theorem stepIsTheNumberedCycle : Obligations.StepIsTheNumberedCycle := by
  refine ⟨⟨rfl, rfl⟩, fun s t h => (step_cases h).1, ?_⟩
  intro s hr ir
  refine ⟨fun c h => step_of_illegal hr h, ?_⟩
  intro d h r n
  have count : operandCount (instrOf d.mnemonic (loadByte s (s.pc + 1)) (loadByte s (s.pc + 2))) = n := by
    rw [operandCount_eq, mnemonicOf_instrOf, opcodeOf_mnemonic h]
  rw [step_of_ok hr h, exec_eq_handler, count, updatePc_eq]

/-- Settles O7: a handler that did not set pc left it at this instruction's address; a jump not taken is one. -/
theorem pcUpdateFollowsTheHandlerResult : Obligations.PcUpdateFollowsTheHandlerResult := by
  refine ⟨?_, ?_, ?_⟩
  · intro i s r n
    rw [exec_eq_handler, updatePc_eq, operandCount_eq]
    cases hp : (handlerOf i s).pcSet with
    | true => rfl
    | false => rw [handlerOf_pc_of_pcSet_false hp]
  · intro opa s h
    rw [exec_jeq, if_neg h, advancePc_one]
  · intro opa s h
    rw [exec_jne, if_pos h, advancePc_one]

/-- Settles O8, instruction by instruction. -/
theorem handlersReportWhetherTheySetPc : Obligations.HandlersReportWhetherTheySetPc := fun i s =>
  ⟨handlerOf_pcSet_iff i s, handlerOf_pc_of_pcSet_false⟩

/-- Settles O9: the fetched bytes are an instruction, which completes without faulting, or take fault entry. -/
theorem cycleCompletesOrFaultsPrecisely : Obligations.CycleCompletesOrFaultsPrecisely := by
  refine ⟨?_, fun i s => exec_completes s i⟩
  intro s hr
  rcases decode_cases (loadByte s s.pc) (loadByte s (s.pc + 1)) (loadByte s (s.pc + 2)) with
    ⟨m, -, hd⟩ | ⟨-, hi, -⟩
  · obtain ⟨t, hstep, hexec, hn⟩ := step_runs_without_fault hr hd
    exact .inl ⟨_, t, hd, hexec, hstep, hn⟩
  · exact .inr ⟨_, hi, step_of_illegal hr hi⟩

/-- Settles O10: every fetch of a running block leads to a next state, and only a running block fetches. -/
theorem stepExactlyWhileRunning : Obligations.StepExactlyWhileRunning :=
  ⟨fun _ => ⟨fun ⟨_, h⟩ => (step_cases h).1, exists_step_of_running⟩, fun _ => step_halted, fun _ _ _ => step_stopped⟩

/-- Settles O50: the three bytes placed at pc are the three bytes the next cycle fetches. -/
theorem placedWordIsTheNextInstruction : Obligations.PlacedWordIsTheNextInstruction := by
  intro s nbits w i h
  obtain ⟨rest, hd⟩ := decodeBytes_of_decodeTableWord h
  rw [← fetched_bytes_withFetchWord s] at hd
  exact step_eq_exec_of_decode rfl (decode_of_decodeBytes hd)

/-- Settles O6: what is fetched is what the bytes at pc decode to. -/
theorem stepRunsTheDecodedInstruction : Obligations.StepRunsTheDecodedInstruction := fun _ _ => step_eq_exec_of_decode

end Sys2Proof.Machine
end

section
/-! SUPPORT. What ADD, SUB, MUL and CMP leave behind: a register written and pc advanced, the numbers their bytes stand
for, CMP's flag by unsigned order, and frames composed over two instructions. -/

namespace Sys2Proof.Machine

/-! ### A register written, then pc advanced (R116, R130) -/

variable (s : State) (i : RegIndex) (v : Byte) (n : Nat)

theorem toNat_pc_advancePc : (advancePc s n).pc.toNat = (s.pc.toNat + (n + 1)) % 256 := by simp

/-- The frame of an instruction whose one effect is a register write: `n` operand bytes are passed over. -/
theorem advancePc_writeReg_frame :
    (advancePc (writeReg s i v) n).pc.toNat = (s.pc.toNat + (n + 1)) % 256 ∧
    RegsUnchangedExcept [i] s (advancePc (writeReg s i v) n) ∧
    ControlUnchanged s (advancePc (writeReg s i v) n) ∧ MemUnchanged s (advancePc (writeReg s i v) n) := by
  refine ⟨toNat_pc_advancePc _ n, ?_, ⟨rfl, rfl, rfl⟩, fun _ => rfl⟩
  intro r hr
  exact readReg_writeReg_ne (List.ne_of_not_mem_cons hr).symm

/-! ### Frames over two instructions -/

theorem ControlUnchanged.trans {s t u : State} (h : ControlUnchanged s t) (h' : ControlUnchanged t u) :
    ControlUnchanged s u := by
  obtain ⟨hfl, hrun, hout⟩ := h
  obtain ⟨hfl', hrun', hout'⟩ := h'
  exact ⟨hfl'.trans hfl, hrun'.trans hrun, hout'.trans hout⟩

theorem MemUnchanged.trans {s t u : State} (h : MemUnchanged s t) (h' : MemUnchanged t u) : MemUnchanged s u :=
  fun a => (h' a).trans (h a)

/-- A register outside `D` is kept by both, and one inside by what they do to it together. -/
theorem RegsUnchangedExcept.trans_restored {D : List RegIndex} {s t u : State} (h : RegsUnchangedExcept D s t)
    (h' : RegsUnchangedExcept D t u) (hD : ∀ r ∈ D, readReg u r = readReg s r) : RegsUnchangedExcept [] s u := by
  intro r _
  by_cases hr : r ∈ D
  · exact hD r hr
  · exact (h' r hr).trans (h r hr)

/-! ### The numbers (R6, R132, R134) -/

/-- The difference of bytes is the non-negative remainder of the difference of their numbers. -/
theorem toNat_sub_eq_emod (a b : Byte) : ((a - b).toNat : Int) = ((a.toNat : Int) - (b.toNat : Int)) % 256 := by
  have ha := a.isLt
  have hb := b.isLt
  rw [BitVec.toNat_sub]
  omega

theorem compareFlag_eq (a b : Byte) : compareFlag a b =
    if a.toNat = b.toNat then .equal else if a.toNat > b.toNat then .greater else .less := by
  simp only [compareFlag, BitVec.toNat_inj, gt_iff_lt]

theorem compareFlag_eq_equal_iff (a b : Byte) : compareFlag a b = .equal ↔ a.toNat = b.toNat := by
  rw [compareFlag_eq]
  split_ifs with he
  · simp [he]
  · simp [he]
  · simp [he]

theorem compareFlag_eq_greater_iff (a b : Byte) : compareFlag a b = .greater ↔ a.toNat > b.toNat := by
  rw [compareFlag_eq]
  split_ifs with he hg
  · simp [he]
  · simp [hg]
  · simp [hg]

theorem compareFlag_eq_less_iff (a b : Byte) : compareFlag a b = .less ↔ a.toNat < b.toNat := by
  rw [compareFlag_eq]
  split_ifs with he hg
  · simp [he]
  · simp [Nat.le_of_lt hg]
  · exact iff_of_true rfl (by omega)

/-! ### JEQ and JNE as one update of pc (R179, R180) -/

theorem exec_jeq_eq_pc (o : Byte) : exec (.jeq o) s =
    .next { s with pc := if s.fl = .equal then readReg s (ridx o) else s.pc + 2 } := by
  rw [exec_jeq]
  split <;> rfl

theorem exec_jne_eq_pc (o : Byte) : exec (.jne o) s =
    .next { s with pc := if s.fl = .equal then s.pc + 2 else readReg s (ridx o) } := by
  rw [exec_jne]
  split <;> rfl

end Sys2Proof.Machine
end

section
/-! CERTIFICATES. The statements about arithmetic and compare. -/

namespace Sys2Proof.Machine

/-- Settles O20: one register written with the sum of bytes, which is the sum modulo 256. -/
theorem addWritesTheSumModulo256 : Obligations.AddWritesTheSumModulo256 := by
  intro opa opb s
  refine ⟨_, exec_add opa opb s, ?_, advancePc_writeReg_frame s _ _ 2⟩
  rw [readReg_advancePc, readReg_writeReg_self, BitVec.toNat_add]

/-- Settles O21: one register written with the difference of bytes, which is its non-negative remainder. -/
theorem subWritesTheDifferenceModulo256 : Obligations.SubWritesTheDifferenceModulo256 := by
  intro opa opb s
  refine ⟨_, exec_sub opa opb s, ?_, advancePc_writeReg_frame s _ _ 2⟩
  rw [readReg_advancePc, readReg_writeReg_self, toNat_sub_eq_emod]

/-- Settles O22: one register written with the product of bytes, which is the product's low byte. -/
theorem mulWritesTheProductModulo256 : Obligations.MulWritesTheProductModulo256 := by
  intro opa opb s
  refine ⟨_, exec_mul opa opb s, ?_, advancePc_writeReg_frame s _ _ 2⟩
  rw [readReg_advancePc, readReg_writeReg_self, BitVec.toNat_mul]

/-- Settles O23: FL is written with the outcome of the compare, by unsigned order, and pc advances. -/
theorem cmpSetsExactlyTheOutcomeFlag : Obligations.CmpSetsExactlyTheOutcomeFlag := fun opa opb s =>
  ⟨_, exec_cmp opa opb s, compareFlag_eq_equal_iff _ _, compareFlag_eq_greater_iff _ _, compareFlag_eq_less_iff _ _,
    compareFlag_ne_none _ _, toNat_pc_advancePc _ 2, fun _ _ => rfl, rfl, rfl, fun _ => rfl⟩

/-- Settles O24: JEQ and JNE ask whether FL is E, which after the compare is whether the two values are equal. -/
theorem compareOutcomeTable : Obligations.CompareOutcomeTable := by
  intro opa opb o s a b
  refine ⟨_, exec_cmp opa opb s, compareFlag_eq _ _, ?_, ?_⟩
  · rw [exec_jeq_eq_pc, advancePc_fl, setFlag_fl]
    simp only [compareFlag_eq_equal_iff, a, b]
  · rw [exec_jne_eq_pc, advancePc_fl, setFlag_fl]
    simp only [compareFlag_eq_equal_iff, a, b]

/-- Settles O25: ADD left the second register alone, so SUB takes away what ADD added; the frames compose. -/
theorem subUndoesAdd : Obligations.SubUndoesAdd := by
  intro opa opb s hne
  refine ⟨_, _, exec_add opa opb s, exec_sub opa opb _, ?_⟩
  obtain ⟨hpc, hregs, hctl, hmem⟩ := advancePc_writeReg_frame s (ridx opa) _ 2
  obtain ⟨hpc', hregs', hctl', hmem'⟩ := advancePc_writeReg_frame _ (ridx opa) _ 2
  refine ⟨hregs.trans_restored hregs' ?_, ?_, hctl.trans hctl', hmem.trans hmem'⟩
  · intro r hr
    simp only [List.mem_singleton.mp hr, readReg_advancePc, readReg_writeReg_self, readReg_writeReg_ne hne,
      BitVec.add_sub_cancel]
  · rw [hpc', hpc]
    omega

end Sys2Proof.Machine
end

section
/-! CERTIFICATES. The statement about HLT. -/

namespace Sys2Proof.Machine

/-- Settles O27: HLT writes the run state and passes over no operand byte, so pc advances past its opcode alone. -/
theorem hltHaltsAndAdvancesPc : Obligations.HltHaltsAndAdvancesPc := by
  intro s
  refine ⟨_, exec_hlt s, setRun_run s .halted, toNat_pc_advancePc (setRun s .halted) 0, ?regs, setRun_fl s .halted,
    setRun_out s .halted, ?mem⟩
  case regs =>
    intro r _
    rw [readReg_advancePc, readReg_setRun]
  case mem =>
    intro a
    rw [loadByte_advancePc, loadByte_setRun]

end Sys2Proof.Machine
end

section
/-! CERTIFICATES. The statements about LDI and PRN. -/

namespace Sys2Proof.Machine

/-- Settles O28: one register written with the immediate byte, and two operand bytes passed over. -/
theorem ldiLoadsTheWholeImmediate : Obligations.LdiLoadsTheWholeImmediate := by
  intro opa opb s
  refine ⟨_, exec_ldi opa opb s, ?_, advancePc_writeReg_frame s (ridx opa) opb 2⟩
  rw [readReg_advancePc, readReg_writeReg_self]

/-- Settles O29: the output log alone is written, with the register's byte, and one operand byte passed over. -/
theorem prnAppendsTheRegister : Obligations.PrnAppendsTheRegister := by
  intro opa s
  let v := readReg s (ridx opa)
  refine ⟨_, exec_prn opa s, emit_out s v, toNat_pc_advancePc (emit s v) 1, ?regs, emit_fl s v, emit_run s v, ?mem⟩
  case regs =>
    intro r _
    rw [readReg_advancePc, readReg_emit]
  case mem =>
    intro a
    rw [loadByte_advancePc, loadByte_emit]

/-- Settles O30: LDI leaves the log as it was and `v` in the register, whose byte PRN then appends. -/
theorem ldiThenPrnOutputsTheValue : Obligations.LdiThenPrnOutputsTheValue := by
  intro r v s
  obtain ⟨t, hldi, hreg, -, -, ⟨-, -, hout⟩, -⟩ := ldiLoadsTheWholeImmediate r v s
  obtain ⟨u, hprn, hlog, -⟩ := prnAppendsTheRegister r t
  exact ⟨t, u, hldi, hprn, by rw [hlog, hout, hreg]⟩

end Sys2Proof.Machine
end

section
/-! SUPPORT. The stack pointer moved down and up: what the registers hold after it, the numbers of its addresses, the
frame of a byte pushed, and a register that is back at its old value. -/

namespace Sys2Proof.Machine

variable (s : State) (i : RegIndex) (v : Byte)

/-! ### The registers after the pointer moves (R166, R167) -/

theorem readReg_decrementSp : readReg (decrementSp s) i = if i = 7 then pushAddr s else readReg s i := by
  simp only [decrementSp_eq, readReg_writeReg, pushAddr_eq, @eq_comm _ 7 i]

theorem readReg_incrementSp : readReg (incrementSp s) i = if i = 7 then readReg s 7 + 1 else readReg s i := by
  simp only [incrementSp_eq, readReg_writeReg, @eq_comm _ 7 i]

/-! ### The numbers of the addresses (R165) -/

theorem toNat_pushAddr : (pushAddr s).toNat = ((readReg s 7).toNat + 255) % 256 := by
  rw [pushAddr_eq]
  bv_omega

theorem toNat_add_one : (v + 1).toNat = (v.toNat + 1) % 256 := BitVec.toNat_add v 1

/-- One above the place pushed to is the stack pointer again. -/
theorem toNat_pushAddr_add_one : ((pushAddr s).toNat + 1) % 256 = (readReg s 7).toNat := by
  rw [toNat_pushAddr]
  omega

/-! ### The frame of a push (R166) -/

/-- Pushing a byte, whatever it is, writes the stack pointer and one location. -/
theorem storeByte_decrementSp_frame :
    RegsUnchangedExcept [7] s (storeByte (decrementSp s) (pushAddr s) v) ∧
    ControlUnchanged s (storeByte (decrementSp s) (pushAddr s) v) ∧
    MemUnchangedExcept (pushAddr s) s (storeByte (decrementSp s) (pushAddr s) v) := by
  refine ⟨?regs, ⟨rfl, rfl, rfl⟩, ?mem⟩
  case regs =>
    intro r hr
    rw [readReg_storeByte, readReg_decrementSp, if_neg (List.ne_of_not_mem_cons hr)]
  case mem =>
    intro a ha
    exact loadByte_storeByte_ne (decrementSp s) v ha.symm

/-- PUSH as one push of the register's byte, followed by step 5 of the cycle. -/
theorem exec_push_eq (opa : Byte) : exec (.push opa) s =
    .next (advancePc (storeByte (decrementSp s) (pushAddr s) (readReg (decrementSp s) (ridx opa))) 1) := by
  rw [exec_push, sp_decrementSp]

/-! ### Frames -/

/-- A register back at its old value need not be excepted. -/
theorem RegsUnchangedExcept.of_restored {D : List RegIndex} {s t : State} {i : RegIndex}
    (h : RegsUnchangedExcept (i :: D) s t) (hi : readReg t i = readReg s i) : RegsUnchangedExcept D s t := by
  intro r hr
  by_cases hri : r = i
  · rw [hri, hi]
  · exact h r (List.not_mem_cons_of_ne_of_not_mem hri hr)

end Sys2Proof.Machine
end

section
/-! CERTIFICATES. The statements about the stack. -/

namespace Sys2Proof.Machine

/-- Settles O32: a push of the register's byte, read after the decrement, with one operand byte passed over. -/
theorem pushStoresBelowTheStackPointer : Obligations.PushStoresBelowTheStackPointer := by
  intro opa s
  obtain ⟨hregs, hctl, hmem⟩ := storeByte_decrementSp_frame s (readReg (decrementSp s) (ridx opa))
  refine ⟨_, exec_push_eq s opa, toNat_pushAddr s, ?sp, ?byte, toNat_pc_advancePc _ 1, hregs, hctl, hmem⟩
  case sp => exact sp_decrementSp s
  case byte => rw [loadByte_advancePc, loadByte_storeByte_self, readReg_decrementSp]

/-- Settles O33: the loaded byte is written first, so the increment starts from it when the register is sp itself. -/
theorem popLoadsFromTheStackPointer : Obligations.PopLoadsFromTheStackPointer := by
  intro opa s
  refine ⟨_, exec_pop opa s, ?other, ?self, toNat_pc_advancePc _ 1, ?regs, ⟨rfl, rfl, rfl⟩, fun _ => rfl⟩
  case other =>
    intro h
    constructor
    · rw [readReg_advancePc, readReg_incrementSp, if_neg h, readReg_writeReg_self, sp_eq]
    · rw [readReg_advancePc, readReg_incrementSp, if_pos rfl, readReg_writeReg_ne h, toNat_add_one]
  case self =>
    intro h
    rw [readReg_advancePc, readReg_incrementSp, if_pos rfl, h, readReg_writeReg_self, sp_eq, toNat_add_one]
  case regs =>
    intro r hr
    obtain ⟨hopa, h7⟩ : r ≠ ridx opa ∧ r ≠ 7 := by simpa using hr
    rw [readReg_advancePc, readReg_incrementSp, if_neg h7, readReg_writeReg_ne hopa.symm]

/-- PUSH b then POP a: the byte that PUSH read ends in `a`, and sp is back unless `a` is sp and took another register's
byte. -/
theorem exec_push_then_pop (a b : Byte) (s : State) : ∃ t u, exec (.push b) s = .next t ∧ exec (.pop a) t = .next u ∧
    (ridx a ≠ 7 → readReg u (ridx a) = readReg (decrementSp s) (ridx b)) ∧
    (ridx a ≠ 7 ∨ ridx b = 7 → readReg u 7 = readReg s 7) ∧
    RegsUnchangedExcept [7, ridx a] s u ∧ MemUnchanged t u ∧ u.pc.toNat = (s.pc.toNat + 4) % 256 := by
  obtain ⟨t, hpush, -, hsp, hbyte, hpc, hregs, -, -⟩ := pushStoresBelowTheStackPointer b s
  obtain ⟨u, hpop, hother, hself, hpc', hregs', -, hmem⟩ := popLoadsFromTheStackPointer a t
  rw [hsp, hbyte] at hother hself
  refine ⟨t, u, hpush, hpop, ?value, ?sp, ?regs, hmem, ?pc⟩
  case value =>
    intro ha
    obtain ⟨hval, -⟩ := hother ha
    rw [hval, readReg_decrementSp]
  case sp =>
    intro hab
    rw [← BitVec.toNat_inj, ← toNat_pushAddr_add_one s]
    by_cases ha : ridx a = 7
    · rw [hself ha, if_pos (hab.resolve_left (not_not_intro ha))]
    · obtain ⟨-, hup⟩ := hother ha
      exact hup
  case regs =>
    intro r hr
    obtain ⟨h7, hra⟩ : r ≠ 7 ∧ r ≠ ridx a := by simpa using hr
    rw [hregs' r (by simp [h7, hra]), hregs r (by simp [h7])]
  case pc =>
    rw [hpc', hpc]
    omega

/-- Settles O34: sp and the popped register, the only ones the pair writes, are back at their old values or hold the
copy. -/
theorem pushThenPopRoundTrip : Obligations.PushThenPopRoundTrip := by
  refine ⟨?same, ?copy⟩
  case same =>
    intro r s
    obtain ⟨t, u, hpush, hpop, hvalue, hsp, hregs, hmem, hpc⟩ := exec_push_then_pop r r s
    have hsp' : readReg u 7 = readReg s 7 := hsp (ne_or_eq (ridx r) 7)
    have hr : readReg u (ridx r) = readReg s (ridx r) := by
      by_cases h : ridx r = 7
      · rw [h, hsp']
      · rw [hvalue h, readReg_decrementSp, if_neg h]
    exact ⟨t, u, hpush, hpop, (hregs.of_restored hsp').of_restored hr, hmem _, hpc⟩
  case copy =>
    intro a b s ha hb
    obtain ⟨t, u, hpush, hpop, hvalue, hsp, hregs, -, -⟩ := exec_push_then_pop a b s
    refine ⟨t, u, hpush, hpop, ?_, hregs.of_restored (hsp (.inl ha))⟩
    rw [hvalue ha, readReg_decrementSp, if_neg hb]

end Sys2Proof.Machine
end

section
/-! SUPPORT. The address after an instruction with one operand byte, and CALL as one push. -/

namespace Sys2Proof.Machine

/-- The address after an instruction with one operand byte, as a number (R27). -/
theorem toNat_add_two (v : Byte) : (v + 2).toNat = (v.toNat + 2) % 256 := BitVec.toNat_add v 2

/-- The same address, written as a byte made of the number. -/
theorem ofNat_toNat_add_two_mod (v : Byte) : BitVec.ofNat 8 ((v.toNat + 2) % 256) = v + 2 := ofNat_toNat_add_mod v 2

/-- CALL as one push of the return address, with pc set instead of advanced (R176). -/
theorem exec_call_eq (opa : Byte) (s : State) : exec (.call opa) s =
    .next (setPc (storeByte (decrementSp s) (pushAddr s) (s.pc + 2)) (readReg (decrementSp s) (ridx opa))) := by
  rw [exec_call, sp_decrementSp]

end Sys2Proof.Machine
end

section
/-! CERTIFICATES. The statements about control transfer. -/

namespace Sys2Proof.Machine

/-- Settles O35: a push of the return address, and pc set from the register as it reads after the decrement. -/
theorem callPushesTheReturnAddress : Obligations.CallPushesTheReturnAddress := by
  intro opa s
  obtain ⟨hregs, hctl, hmem⟩ := storeByte_decrementSp_frame s (s.pc + 2)
  refine ⟨_, exec_call_eq opa s, toNat_pushAddr s, ?sp, ?byte, ?pc, hregs, hctl, hmem⟩
  case sp => exact sp_decrementSp s
  case byte => rw [loadByte_setPc, loadByte_storeByte_self, toNat_add_two]
  case pc => rw [setPc_pc, readReg_decrementSp]

/-- Settles O36: pc is set from the byte at sp, and moving sp up is the only register write. -/
theorem retPopsThePc : Obligations.RetPopsThePc := by
  intro s
  refine ⟨_, exec_ret s, ?pc, ?sp, ?regs, ⟨rfl, rfl, rfl⟩, fun _ => rfl⟩
  case pc => rw [incrementSp_eq, writeReg_pc, setPc_pc, sp_eq]
  case sp => rw [readReg_incrementSp, if_pos rfl, readReg_setPc, toNat_add_one]
  case regs =>
    intro r hr
    rw [readReg_incrementSp, if_neg (List.ne_of_not_mem_cons hr), readReg_setPc]

/-- Settles O37: RET takes pc from the byte that CALL stored at the new sp, and one above that place is the old sp. -/
theorem callThenReturnResumesAfterTheCall : Obligations.CallThenReturnResumesAfterTheCall := by
  intro opa s
  obtain ⟨t, hcall, -, hsp, hbyte, -⟩ := callPushesTheReturnAddress opa s
  refine ⟨t, hcall, ?_⟩
  intro u husp hubyte
  obtain ⟨v, hret, hpc, hup, -⟩ := retPopsThePc u
  refine ⟨v, hret, ?pc, ?sp⟩
  case pc => rw [hpc, husp, hubyte, hsp, hbyte]
  case sp => rw [← BitVec.toNat_inj, hup, husp, hsp, toNat_pushAddr_add_one]

/-- Settles O38: the one update is of pc, so every other field is as before. -/
theorem jmpSetsPcFromTheRegister : Obligations.JmpSetsPcFromTheRegister := fun opa s =>
  ⟨_, exec_jmp opa s, setPc_pc s _, fun r _ => readReg_setPc s r _, ⟨rfl, rfl, rfl⟩, fun a => loadByte_setPc s _ a⟩

/-- Settles O39: JEQ and JNE are one update of pc each, and where the target is the fall-through address both outcomes
of the test set pc to it. -/
theorem branchIfAndOnlyIfTheEqualFlag : Obligations.BranchIfAndOnlyIfTheEqualFlag := by
  refine ⟨?jeq, ?jne, ?fallThrough⟩
  case jeq =>
    intro opa s
    rw [ofNat_toNat_add_two_mod, exec_jeq_eq_pc]
  case jne =>
    intro opa s
    rw [ofNat_toNat_add_two_mod, exec_jne_eq_pc]
  case fallThrough =>
    intro opa s h
    have htarget : readReg s (ridx opa) = s.pc + 2 := by
      rw [← BitVec.toNat_inj, h, toNat_add_two]
    rw [exec_jeq_eq_pc, exec_jne_eq_pc, htarget, ite_self]
    exact ⟨rfl, rfl⟩

end Sys2Proof.Machine
end

section
/-! SUPPORT. The status outputs in terms of the run state (R199), and what a step that enters Fault records (R217). -/

namespace Sys2Proof.Machine

theorem haltedOut_eq_true_iff (s : State) : haltedOut s = true ↔ s.run = .halted := beq_iff_eq

theorem faultOut_eq_some_iff (s : State) (k : BitVec 2) (op : Byte) :
    faultOut s = some (k, op) ↔ ∃ c, s.run = .fault c op ∧ causeCode c = k := by
  unfold faultOut
  cases s.run with
  | running => simp
  | halted => simp
  | fault c o => simp [and_comm]

theorem isSome_faultOut_iff (s : State) : (faultOut s).isSome = true ↔ ∃ c op, s.run = .fault c op := by
  simp only [Option.isSome_iff_exists, Prod.exists, faultOut_eq_some_iff]
  constructor
  · rintro ⟨-, op, c, hf, -⟩
    exact ⟨c, op, hf⟩
  · rintro ⟨c, op, hf⟩
    exact ⟨_, op, c, hf, rfl⟩

/-- The code names the cause: 1 is DecodeFailure, 2 is UnsupportedAluOperation (D4, log 2). -/
theorem exists_causeCode_eq_iff (p : Cause → Prop) (k : BitVec 2) : (∃ c, p c ∧ causeCode c = k) ↔
    (p .decodeFailure ∧ k = 1) ∨ (p .unsupportedAluOperation ∧ k = 2) := by
  constructor
  · rintro ⟨c, hp, rfl⟩
    cases c with
    | decodeFailure => exact .inl ⟨hp, rfl⟩
    | unsupportedAluOperation => exact .inr ⟨hp, rfl⟩
  · rintro (⟨hp, rfl⟩ | ⟨hp, rfl⟩)
    · exact ⟨_, hp, rfl⟩
    · exact ⟨_, hp, rfl⟩

/-- A step that ends in Fault took fault entry: it records the byte at pc and that byte's cause, and leaves pc there
(R215, R217). -/
theorem fault_record_of_step {s t : State} {c : Cause} {op : Byte} (h : step s = .next t) (ht : t.run = .fault c op) :
    op = loadByte s s.pc ∧ t.pc = s.pc ∧ decodeOpcode op = .illegal c := by
  obtain ⟨hr, ⟨i, -, he⟩ | ⟨c', hd, rfl⟩⟩ := step_cases h
  · exact absurd ht (notFaulted_of_exec he (notFaulted_of_running hr) c op)
  · obtain ⟨rfl, rfl⟩ := RunState.fault.inj ht
    exact ⟨rfl, rfl, decodeOpcode_of_decode_illegal hd⟩

end Sys2Proof.Machine
end

section
/-! CERTIFICATES. The statement about the status outputs. -/

namespace Sys2Proof.Machine

/-- Settles O43: each output is read off `run`, a step starts only in Running, and a step that ends in Fault took fault
entry. -/
theorem statusOutputsTellTheEndState : Obligations.StatusOutputsTellTheEndState := by
  refine ⟨haltedOut_eq_true_iff, ?codes, ?exclusive, ?final, ?raised⟩
  case codes =>
    intro s k op
    rw [faultOut_eq_some_iff, exists_causeCode_eq_iff (fun c => s.run = .fault c op)]
  case exclusive =>
    rintro s ⟨hh, hf⟩
    obtain ⟨c, op, hf⟩ := (isSome_faultOut_iff s).mp hf
    cases ((haltedOut_eq_true_iff s).mp hh).symm.trans hf
  case final =>
    intro s t hend hstep
    obtain ⟨hr, -⟩ := step_cases hstep
    simp [haltedOut_eq_true_iff, isSome_faultOut_iff, hr] at hend
  case raised =>
    intro s t k op hstep hout
    obtain ⟨c, ht, rfl⟩ := (faultOut_eq_some_iff t k op).mp hout
    obtain ⟨hop, hpc, hd⟩ := fault_record_of_step hstep ht
    have hcause := (exists_causeCode_eq_iff (fun c => decodeOpcode op = .illegal c) _).mp ⟨c, hd, rfl⟩
    exact ⟨hop, hpc, hcause.imp And.symm And.symm⟩

end Sys2Proof.Machine
end

section
/-! CERTIFICATES. The statement about the fault causes. -/

namespace Sys2Proof.Machine

/-- Settles O13: `exec` always answers with what step 5 makes of the handler's result, and among the handlers only HLT's
writes `run`. -/
theorem definedInstructionsNeverFault : Obligations.DefinedInstructionsNeverFault := by
  intro i s
  obtain ⟨t, ht, -⟩ := exec_completes s i
  exact ⟨t, ht, run_of_exec ht⟩

end Sys2Proof.Machine
end

section
/-! SUPPORT. What reset over an IMAGE leaves in pc and memory (R38, R240): the first fetch reads from address 0. -/

namespace Sys2Proof.Machine

variable (image : Memory)

@[simp] theorem resetWith_pc : (State.resetWith image).pc = 0 := rfl

@[simp] theorem resetWith_mem : (State.resetWith image).mem = image := rfl

@[simp] theorem resetWith_run : (State.resetWith image).run = .running := rfl

@[simp] theorem loadByte_resetWith (a : Byte) : loadByte (State.resetWith image) a = memRead image a := rfl

end Sys2Proof.Machine
end

section
/-! CERTIFICATES. The statement about the first instruction after reset. -/

namespace Sys2Proof.Machine

/-- Settles O47: reset leaves the block Running with pc 0 over the IMAGE, so its first cycle fetches from address 0. -/
theorem firstInstructionIsAtAddress0 : Obligations.FirstInstructionIsAtAddress0 := by
  intro image
  refine ⟨resetWith_pc image, resetWith_mem image, ?defined, ?undefined⟩
  case defined =>
    intro i hd
    exact step_eq_exec_of_decode (resetWith_run image) (by simpa using hd)
  case undefined =>
    intro c hc
    exact step_of_illegal (resetWith_run image) hc

end Sys2Proof.Machine
end
